-- ==== Sys2Proof/Word.lean ====
section
/-! DEFINITION. Word.lean: the word types of the block (`00_scope.md` R6, R7, R9) and the byte sequence that a buffer is
(`10_state.md` R25). All quantities are unsigned (R9). -/

namespace Sys2Proof

/-- A byte, `u8`. Bit 0 is the least significant bit (R8). -/
abbrev Byte := BitVec 8

/-- A 16-bit wire field (`totalDataLen`, `contentSize`), `u16`. -/
abbrev Half := BitVec 16

/-- A 32-bit wire field (`packetNumber`, `crc`) and the register `SEQ`, `u32`. -/
abbrev Word := BitVec 32

/-- A command word `CMD` (R80), `u64`. -/
abbrev Cmd := BitVec 64

/-- The valid part of a buffer space: the byte at offset `k` is element `k`, and an offset at or above the length
holds nothing (`10_state.md` R25: "the model represents `IBUF` as a byte sequence"). DESIGN CHOICE, log entry 1. -/
abbrev Memory := List Byte

end Sys2Proof
end

