-- ==== Sys2Proof/Syntax.lean ====
section
/-! DEFINITION. Syntax.lean: the ten operations (`30_encoding.md` R82, operands as in R85), the text forms of R85,
and the host's inputs: a request (`10_state.md` R26) or a reset (`70_reset_and_hazards.md` R220). -/

namespace Sys2Proof

/-- The operations. An operand is named as R85 names it; `pn = none` is R85's `auto` (`PNV = 0`). A field an operation
ignores (R81) is no operand of it, so no meaning can read it. -/
inductive Instr where
  /-- `SETBIT byte, index, value` (R100). -/
  | setbit (byte index : Byte) (value : Bool)
  /-- `GETBIT byte, index` (R101). -/
  | getbit (byte index : Byte)
  /-- `INFOENC hdp, wfa, ros, info` (R110). -/
  | infoenc (hdp wfa ros : Bool) (info : Byte)
  /-- `INFODEC byte` (R111). -/
  | infodec (byte : Byte)
  /-- `CKSUM [bytes]` (R122); the bytes are `IBUF`. -/
  | cksum
  /-- `CRC32 [bytes]` (R132); the bytes are `IBUF`. -/
  | crc32
  /-- `ENC.S hdp, wfa, ros, info, dev, pn|auto, [content]` (R144); the content is `IBUF`. -/
  | encS (hdp wfa ros : Bool) (info dev : Byte) (pn : Option Word)
  /-- `ENC.P hdp, wfa, ros, info, dev, pn|auto, [content]` (R145); `dev` is ignored (R81), so it is
  an operand of the text form only. -/
  | encP (hdp wfa ros : Bool) (info : Byte) (pn : Option Word)
  /-- `DEC.S [packet]` (R160); the packet is `IBUF`. -/
  | decS
  /-- `DEC.P [packet]` (R180); the packet is `IBUF`. -/
  | decP
  deriving DecidableEq, Repr

/-- A request as R85 writes it, less the bytes in brackets, which are `IBUF`: the mnemonic with every operand it binds to a
field, among them the `dev` that `ENC.P` ignores. `pn = none` is `auto`. -/
inductive TextForm where
  | setbit (byte index : Byte) (value : Bool)
  | getbit (byte index : Byte)
  | infoenc (hdp wfa ros : Bool) (info : Byte)
  | infodec (byte : Byte)
  | cksum
  | crc32
  | encS (hdp wfa ros : Bool) (info dev : Byte) (pn : Option Word)
  | encP (hdp wfa ros : Bool) (info dev : Byte) (pn : Option Word)
  | decS
  | decP
  deriving DecidableEq, Repr

/-- The pseudo-form `ENC isSecure, ...` of R85: the `.S` form or the `.P` form, with the same operands. -/
def TextForm.enc (isSecure hdp wfa ros : Bool) (info dev : Byte) (pn : Option Word) : TextForm :=
  if isSecure then .encS hdp wfa ros info dev pn else .encP hdp wfa ros info dev pn

/-- The pseudo-form `DEC isSecure, [packet]` of R85. -/
def TextForm.dec (isSecure : Bool) : TextForm :=
  if isSecure then .decS else .decP

/-- A request `(CMD, ILEN, IBUF)` (R26). `ILEN` is the length of `ibuf`. -/
structure Request where
  cmd  : Cmd
  ibuf : Memory
  deriving DecidableEq, Repr

/-- What the host can do to the block between two operations. -/
inductive Input where
  /-- Present a request (R26). -/
  | request (r : Request)
  /-- Apply reset (R220). -/
  | reset
  deriving DecidableEq, Repr

end Sys2Proof
end

