-- ==== Sys2Proof/Decode.lean ====
section
/-! DEFINITION. Decode.lean: the command word (`30_encoding.md` R80 to R84). First the fields and the decoder, total on
every 64-bit word and rejecting by name (R83); then the encoder, which writes the fields an operation ignores as 0, and the text
forms with their words (R85); then the operation map of R82 as a table, and the host's numbering of a table word. -/

namespace Sys2Proof

/-! ### Fields of `CMD` (R80) -/

def opField (cmd : Cmd) : Byte := cmd.extractLsb' 0 8
def secField (cmd : Cmd) : Bool := cmd.getLsbD 8
def pnvField (cmd : Cmd) : Bool := cmd.getLsbD 9
def valField (cmd : Cmd) : Bool := cmd.getLsbD 10
def hdpField (cmd : Cmd) : Bool := cmd.getLsbD 11
def wfaField (cmd : Cmd) : Bool := cmd.getLsbD 12
def rosField (cmd : Cmd) : Bool := cmd.getLsbD 13
def rsvField (cmd : Cmd) : BitVec 2 := cmd.extractLsb' 14 2
def aField (cmd : Cmd) : Byte := cmd.extractLsb' 16 8
def bField (cmd : Cmd) : Byte := cmd.extractLsb' 24 8
def pnField (cmd : Cmd) : Word := cmd.extractLsb' 32 32

/-- The packet-number operand: `PN` when `PNV = 1`, omitted when `PNV = 0` (R80, R81). -/
def pnOperand (cmd : Cmd) : Option Word :=
  if pnvField cmd then some (pnField cmd) else none

/-! ### The decoder -/

/-- Why a command word selects no operation (R83). Both are answered with `IllegalCommand`. -/
inductive Reject where
  /-- `RSV` is not 0. -/
  | reservedBits (rsv : BitVec 2)
  /-- `OP` is `0x00` or at least `0x09`. -/
  | unknownOp (op : Byte)
  deriving DecidableEq, Repr

/-- The operation a command word selects (R82), or why it selects none (R83). -/
def decode (cmd : Cmd) : Except Reject Instr :=
  if rsvField cmd ≠ 0#2 then .error (.reservedBits (rsvField cmd))
  else if opField cmd = 0x01#8 then .ok (.setbit (aField cmd) (bField cmd) (valField cmd))
  else if opField cmd = 0x02#8 then .ok (.getbit (aField cmd) (bField cmd))
  else if opField cmd = 0x03#8 then .ok (.infoenc (hdpField cmd) (wfaField cmd) (rosField cmd) (aField cmd))
  else if opField cmd = 0x04#8 then .ok (.infodec (aField cmd))
  else if opField cmd = 0x05#8 then .ok .cksum
  else if opField cmd = 0x06#8 then .ok .crc32
  else if opField cmd = 0x07#8 then
    if secField cmd then
      .ok (.encS (hdpField cmd) (wfaField cmd) (rosField cmd) (aField cmd) (bField cmd) (pnOperand cmd))
    else
      .ok (.encP (hdpField cmd) (wfaField cmd) (rosField cmd) (aField cmd) (pnOperand cmd))
  else if opField cmd = 0x08#8 then
    if secField cmd then .ok .decS else .ok .decP
  else .error (.unknownOp (opField cmd))

/-! ### The encoder -/

/-- A field placed at bit `lo` of a command word. -/
def placeField {w : Nat} (v : BitVec w) (lo : Nat) : Cmd :=
  v.setWidth 64 <<< lo

/-- The command word with these fields (R80), `RSV = 0`. -/
def packCmd (pn : Word) (b a : Byte) (ros wfa hdp val pnv sec : Bool) (op : Byte) : Cmd :=
  placeField pn 32 ||| placeField b 24 ||| placeField a 16 ||| placeField (BitVec.ofBool ros) 13
    ||| placeField (BitVec.ofBool wfa) 12 ||| placeField (BitVec.ofBool hdp) 11 ||| placeField (BitVec.ofBool val) 10
    ||| placeField (BitVec.ofBool pnv) 9 ||| placeField (BitVec.ofBool sec) 8 ||| placeField op 0

/-- The command word of an operation; the fields it has no operand for are 0 (R85). -/
def encode : Instr → Cmd
  | .setbit byte index value => packCmd 0 index byte false false false value false false 0x01#8
  | .getbit byte index => packCmd 0 index byte false false false false false false 0x02#8
  | .infoenc hdp wfa ros info => packCmd 0 0 info ros wfa hdp false false false 0x03#8
  | .infodec byte => packCmd 0 0 byte false false false false false false 0x04#8
  | .cksum => packCmd 0 0 0 false false false false false false 0x05#8
  | .crc32 => packCmd 0 0 0 false false false false false false 0x06#8
  | .encS hdp wfa ros info dev pn => packCmd (pn.getD 0) dev info ros wfa hdp false pn.isSome true 0x07#8
  | .encP hdp wfa ros info pn => packCmd (pn.getD 0) 0 info ros wfa hdp false pn.isSome false 0x07#8
  | .decS => packCmd 0 0 0 false false false false false true 0x08#8
  | .decP => packCmd 0 0 0 false false false false false false 0x08#8

/-! ### The text forms (R85) -/

/-- The operation a text form stands for: `ENC.P` ignores its `dev` (R81). -/
def TextForm.instr : TextForm → Instr
  | .setbit byte index value => .setbit byte index value
  | .getbit byte index => .getbit byte index
  | .infoenc hdp wfa ros info => .infoenc hdp wfa ros info
  | .infodec byte => .infodec byte
  | .cksum => .cksum
  | .crc32 => .crc32
  | .encS hdp wfa ros info dev pn => .encS hdp wfa ros info dev pn
  | .encP hdp wfa ros info _ pn => .encP hdp wfa ros info pn
  | .decS => .decS
  | .decP => .decP

/-- The command word of a text form: the operand-to-field binding of R85, with fields its mnemonic does not bind 0. It is
the word of its operation, and for `ENC.P` has `dev` in `B`. -/
def TextForm.word : TextForm → Cmd
  | .setbit byte index value => encode (.setbit byte index value)
  | .getbit byte index => encode (.getbit byte index)
  | .infoenc hdp wfa ros info => encode (.infoenc hdp wfa ros info)
  | .infodec byte => encode (.infodec byte)
  | .cksum => encode .cksum
  | .crc32 => encode .crc32
  | .encS hdp wfa ros info dev pn => encode (.encS hdp wfa ros info dev pn)
  | .encP hdp wfa ros info dev pn => packCmd (pn.getD 0) dev info ros wfa hdp false pn.isSome false 0x07#8
  | .decS => encode .decS
  | .decP => encode .decP

/-- The request a text form and its bracketed bytes stand for: `ILEN` is the number of bytes listed (R85). -/
def TextForm.request (f : TextForm) (bytes : Memory) : Request where
  cmd := f.word
  ibuf := bytes

/-! ### The operation map as a table -/

/-- One row of R82's table: the word selects the operation when `cmd &&& mask = pattern`. `used` marks the bits the
operation reads (the bits that are not `x` in the row's encoding in `opcode_table.json`; R80, R81). -/
structure OpRow where
  mnemonic : String
  mask     : Cmd
  pattern  : Cmd
  used     : Cmd
  deriving DecidableEq, Repr

/-- The ten rows of R82. -/
def opTable : List OpRow :=
  [ ⟨"SETBIT",  0x000000000000C0FF#64, 0x0000000000000001#64, 0x00000000FFFFC4FF#64⟩,
    ⟨"GETBIT",  0x000000000000C0FF#64, 0x0000000000000002#64, 0x00000000FFFFC0FF#64⟩,
    ⟨"INFOENC", 0x000000000000C0FF#64, 0x0000000000000003#64, 0x0000000000FFF8FF#64⟩,
    ⟨"INFODEC", 0x000000000000C0FF#64, 0x0000000000000004#64, 0x0000000000FFC0FF#64⟩,
    ⟨"CKSUM",   0x000000000000C0FF#64, 0x0000000000000005#64, 0x000000000000C0FF#64⟩,
    ⟨"CRC32",   0x000000000000C0FF#64, 0x0000000000000006#64, 0x000000000000C0FF#64⟩,
    ⟨"ENC.S",   0x000000000000C1FF#64, 0x0000000000000107#64, 0xFFFFFFFFFFFFFBFF#64⟩,
    ⟨"ENC.P",   0x000000000000C1FF#64, 0x0000000000000007#64, 0xFFFFFFFF00FFFBFF#64⟩,
    ⟨"DEC.S",   0x000000000000C1FF#64, 0x0000000000000108#64, 0x000000000000C1FF#64⟩,
    ⟨"DEC.P",   0x000000000000C1FF#64, 0x0000000000000008#64, 0x000000000000C1FF#64⟩ ]

/-- The mnemonic of an operation, as R82 and `opcode_table.json` spell it. -/
def Instr.mnemonic : Instr → String
  | .setbit _ _ _ => "SETBIT"
  | .getbit _ _ => "GETBIT"
  | .infoenc _ _ _ _ => "INFOENC"
  | .infodec _ => "INFODEC"
  | .cksum => "CKSUM"
  | .crc32 => "CRC32"
  | .encS _ _ _ _ _ _ => "ENC.S"
  | .encP _ _ _ _ _ => "ENC.P"
  | .decS => "DEC.S"
  | .decP => "DEC.P"

/-! ### The host's numbering of a table word -/

/-- The command word whose low `nbits` bits are `w` and whose other bits are 0. `CMD` is a number, not bytes, so its
numbering is the table's own (R80). -/
def tableWord (nbits w : Nat) : Cmd :=
  BitVec.ofNat 64 (w % 2 ^ nbits)

/-- The operation the decoder reads from a table word. A word of more than 64 bits is none (R84). -/
def decodeTableWord (nbits w : Nat) : Option Instr :=
  if nbits ≤ 64 then (decode (tableWord nbits w)).toOption else none

end Sys2Proof
end

