-- ==== Sys2Proof/Config.lean ====
section
/-! DEFINITION. Config.lean: the fixed constants of the block (`00_scope.md` R6 and the table of R7). None is a
parameter: "the model takes no configuration argument", and the spec leaves no value free, so nothing here is opaque. -/

namespace Sys2Proof.Config

/-- `START_BYTE`. -/
abbrev startByte : Byte := 0xFF#8
/-- `STOP_BYTE`. -/
abbrev stopByte : Byte := 0xFE#8
/-- `CRC_POLY`. -/
abbrev crcPoly : Word := 0xEDB88320#32
/-- `CRC_INIT`. -/
abbrev crcInit : Word := 0xFFFFFFFF#32
/-- `CRC_XOROUT`, the final bitwise complement. -/
abbrev crcXorOut : Word := 0xFFFFFFFF#32
/-- `INFO_MASK`. -/
abbrev infoMask : Byte := 0x1F#8
/-- `SECURE_OVERHEAD`: the bytes of a secure packet that are not content. -/
abbrev secureOverhead : Nat := 17
/-- `PLAIN_OVERHEAD`: the bytes of a plain packet that are not content. -/
abbrev plainOverhead : Nat := 5
/-- `HDR_CK_LEN`: the bytes the header checksum covers. -/
abbrev hdrCkLen : Nat := 11
/-- `CRC_TAIL`: the trailing CRC and stop byte, which the CRC does not cover. Equal to `plainOverhead` by coincidence
only (R7). -/
abbrev crcTail : Nat := 5
/-- `MAX_CONTENT`. -/
abbrev maxContent : Nat := 65535
/-- `LEN_BITS`: the width of `ILEN` and `OLEN`. -/
abbrev lenBits : Nat := 17
/-- `CMD_BITS`. -/
abbrev cmdBits : Nat := 64

end Sys2Proof.Config
end

