-- ==== Sys2Proof/Machine/State.lean ====
section
/-! DEFINITION. State.lean: the frame record, the failures, the response and the state of the block (`10_state.md`), as
plain data, and the state after reset. -/

namespace Sys2Proof.Machine

/-! ### The frame record (R28) -/

/-- The info section: three flags without meaning to the block (R23) and a 5-bit value. -/
structure InfoSection where
  highDataPriority : Bool
  waitForAnswer    : Bool
  readOrSend       : Bool
  info             : BitVec 5
  deriving DecidableEq, Repr

/-- The fields only a secure frame has. -/
structure SecureHeader where
  startByte      : Byte
  totalDataLen   : Half
  deviceID       : Byte
  contentSize    : Half
  headerChecksum : Byte
  crc            : Word
  stopByte       : Byte
  deriving DecidableEq, Repr

/-- The frame record; `secureHeader` is absent in plain mode. -/
structure Frame where
  packetNumber : Word
  infoSection  : InfoSection
  content      : Memory
  secureHeader : Option SecureHeader
  deriving DecidableEq, Repr

/-! ### Failures and responses -/

/-- The seven typed failures (`60_exceptions.md` R191): statuses other than `OK`. -/
inductive Failure where
  /-- A bit index above 7 (R193). -/
  | invalidArgument
  /-- Content longer than 65535 bytes (R194). -/
  | contentTooLarge
  /-- A packet shorter than its mode or its `contentSize` needs (R195). -/
  | frameTooShort
  /-- A wrong start or stop byte (R196). -/
  | framingError
  /-- The recomputed header checksum differs from byte 11 (R197). -/
  | checksumMismatch
  /-- The recomputed CRC differs from the stored one (R198). -/
  | crcMismatch
  /-- The command word selects no operation (R199). -/
  | illegalCommand
  deriving DecidableEq, Repr

/-- The eight statuses (R191; `93_implementation_defined.md` U26). -/
inductive Status where
  | ok
  | failed (f : Failure)
  deriving DecidableEq, Repr

/-- A response (R29): one constructor for each row of its table, and one for failure. A port that an operation does not
drive has no value here (U17). -/
inductive Response where
  /-- A status other than `OK`, and nothing else (R192). -/
  | failure (f : Failure)
  /-- `SETBIT`. -/
  | setbit (byte : Byte)
  /-- `GETBIT`. -/
  | getbit (bit : Bool)
  /-- `INFOENC`. -/
  | infoenc (byte : Byte)
  /-- `INFODEC`. -/
  | infodec (info : InfoSection)
  /-- `CKSUM`. -/
  | cksum (byte : Byte)
  /-- `CRC32`. -/
  | crc32 (word : Word)
  /-- `ENC.S`, `ENC.P`: `OBUF[0..OLEN)`. -/
  | packet (bytes : Memory)
  /-- `DEC.S`, `DEC.P`: its content is `OBUF[0..OLEN)`. -/
  | frame (f : Frame)
  deriving DecidableEq, Repr

/-! ### Stops -/

/-- Why a step stops with a fault. The block has no such stop (R208: "a failure is an ordinary response value"). -/
inductive Fault where
  /-- A buffer read at an offset at or above the buffer's length (R11, R44). Raised by the read operations of
  `Machine/Ops.lean` alone; no operation reaches it, which an obligation states. Safe: it stands where a model could
  otherwise invent a byte. Log entry 7. -/
  | readPastEnd
  deriving DecidableEq, Repr

/-- Why a step has no meaning. -/
inductive Refusal where
  /-- An operation without a meaning. Raised by refused arms of `exec` alone, of which there are none. Safe. -/
  | notModelled (mnemonic : String)
  /-- A request whose buffer has 2^17 bytes or more, which the 17-bit port `ILEN` cannot express (R25, R26). Raised by
  `step`. Safe: no such request exists. Log entry 3. -/
  | overlongRequest
  deriving DecidableEq, Repr

/-! ### The state -/

/-- The state. `seq` is the block's only register (R20, R24, R31). The other fields are the model's: what the request
port, the response port and the host hold (log entries 2, 4, 5). -/
structure State where
  /-- `SEQ`, the packet-number counter (R20). -/
  seq    : Word
  /-- `IBUF[0..ILEN)` of the request accepted last (R25); `ILEN` is its length. No later request reads it. -/
  ibuf   : Memory
  /-- The response delivered last, if any since reset (R29, R31). -/
  rsp    : Option Response
  /-- What the host will present, first first. Not a queue of the block: the host presents one at a time (R226). -/
  inputs : List Input
  deriving DecidableEq, Repr

/-- The state after reset (R31, R221): `SEQ = 0` and no response pending. The host has presented nothing and `IBUF` is
empty: DESIGN CHOICE, log entries 2 and 5. -/
def State.reset : State where
  seq := 0
  ibuf := []
  rsp := none
  inputs := []

end Sys2Proof.Machine
end

