-- ==== Sys2Proof/Machine/Ops.lean ====
section
/-! DEFINITION. Ops.lean: the named operations over buffers, the register and the response port (`00_scope.md` R10 to R12;
`20_memory.md`): reading a buffer, big-endian fields, `raise`, delivering a response or a failure, accepting a request,
applying reset. -/

namespace Sys2Proof.Machine

/-! ### Running an operation's pseudocode -/

/-- How pseudocode ends without a result: `raise` (R12), or a buffer read past the end, which R11 forbids. -/
inductive Stop where
  | raise (f : Failure)
  | readPastEnd
  deriving DecidableEq, Repr

/-- A piece of pseudocode: a result, or a stop. -/
abbrev Op (α : Type) := Except Stop α

/-- `raise <Status>` (R12). -/
def raise {α : Type} (f : Failure) : Op α :=
  .error (.raise f)

/-! ### Reading a buffer (R11, R42 to R44) -/

/-- `MemRead(buf, off, 1)`: the byte at an offset. -/
def readByte (buf : Memory) (off : Nat) : Op Byte :=
  match buf[off]? with
  | some b => .ok b
  | none => .error .readPastEnd

/-- `MemRead(buf, off, n)`: the number whose most significant byte is `buf[off]` (R11, R41). -/
def memRead (buf : Memory) (off : Nat) : Nat → Op Nat
  | 0 => .ok 0
  | n + 1 => do
    let high ← memRead buf off n
    let low ← readByte buf (off + n)
    pure (high * 256 + low.toNat)

/-- `BE16(buf, off)` (R11). -/
def be16 (buf : Memory) (off : Nat) : Op Half := do
  let v ← memRead buf off 2
  pure (BitVec.ofNat 16 v)

/-- `BE32(buf, off)` (R11). -/
def be32 (buf : Memory) (off : Nat) : Op Word := do
  let v ← memRead buf off 4
  pure (BitVec.ofNat 32 v)

/-- The `n` bytes `buf[off..off+n)`, in order (R43). -/
def readRange (buf : Memory) (off n : Nat) : Op Memory :=
  if off + n ≤ buf.length then .ok ((buf.drop off).take n) else .error .readPastEnd

/-! ### The cells of a buffer -/

/-- The (offset, byte) pairs of a buffer whose first byte lies at offset `k`. -/
def cellsFrom (k : Nat) : Memory → List Host.Cell
  | [] => []
  | b :: bs => (k, b) :: cellsFrom (k + 1) bs

/-- A buffer as (offset, byte) pairs, offsets rising from 0; an offset that is not listed holds nothing (R25). -/
def cells (m : Memory) : List Host.Cell := cellsFrom 0 m

/-! ### Writing fields (R11, R41) -/

/-- The bytes `MemWrite(buf, off, n, v)` puts at `off`, ..., `off+n-1`: byte `k` is `(v >> (8*(n-1-k)))[7:0]` (R11). An
encoder produces its packet front to back, so each field is written where the bytes before it end (log entry 8). -/
def beBytes : Nat → Nat → Memory
  | 0, _ => []
  | n + 1, v => BitVec.ofNat 8 (v >>> (8 * n)) :: beBytes n v

/-! ### The response port -/

/-- Deliver a response (R29, R46). -/
def respond (r : Response) (s : State) : State :=
  { s with rsp := some r }

/-- Taking an exception: the delivery of the failure response. Nothing is saved and nothing else changes (R190, R192,
R201). There is no return from it (R202). -/
def takeFailure (f : Failure) (s : State) : State :=
  respond (.failure f) s

/-- `SEQ <- v`, which truncates to 32 bits (R10). -/
def writeSeq (v : Nat) (s : State) : State :=
  { s with seq := BitVec.ofNat 32 v }

/-- End an operation that does not touch `SEQ`. -/
def finish (r : Op Response) (s : State) : Host.Outcome State Fault Refusal :=
  match r with
  | .ok resp => .next (respond resp s)
  | .error (.raise f) => .next (takeFailure f s)
  | .error .readPastEnd => .fault .readPastEnd

/-! ### The request port -/

/-- Accept a request: the block sees `IBUF` as the host left it (R46, R50), and the host goes on to its next input. -/
def accept (r : Request) (rest : List Input) (s : State) : State :=
  { s with ibuf := r.ibuf, inputs := rest }

/-- Apply reset: its whole effect is `SEQ <- 0`, and no response is pending (R220, R221). -/
def applyReset (rest : List Input) (s : State) : State :=
  { s with seq := 0, rsp := none, inputs := rest }

/-- The host presents nothing: the block does nothing (R22, R46). DESIGN CHOICE, log entry 2. -/
def idle (s : State) : State := s

end Sys2Proof.Machine
end

