-- ==== Sys2Proof/Machine/Flags.lean ====
section
/-! DEFINITION. Flags.lean: the bit functions and the info byte, which packs the three data flags (`40_bitops.md`,
`41_infobyte.md`). The block has no status flags, condition codes or carry (`10_state.md` R23), so no flag is computed by
any operation; these three are data of a frame. -/

namespace Sys2Proof.Machine

/-- `set_bit(b, i, v)` (R100); bit `i` is the bit of value `2^i` (R8). -/
def setBit (b i : Byte) (v : Bool) : Op Byte :=
  if 7#8 < i then raise .invalidArgument
  else if v then .ok (b ||| (1#8 <<< i.toNat))
  else .ok (b &&& ~~~(1#8 <<< i.toNat))

/-- `get_bit(b, i)` (R101). -/
def getBit (b i : Byte) : Op Bool :=
  if 7#8 < i then raise .invalidArgument
  else .ok (decide ((b >>> i.toNat) &&& 1#8 = 1#8))

/-- A bool as 0 or 1 in a byte. -/
def boolByte (v : Bool) : Byte :=
  if v then 1#8 else 0#8

/-- `info_enc(hdp, wfa, ros, info)` (R110, R62): the info value's bits 7:5 are dropped. -/
def infoEnc (hdp wfa ros : Bool) (info : Byte) : Byte :=
  (info &&& Config.infoMask) ||| (boolByte hdp <<< 5) ||| (boolByte wfa <<< 6) ||| (boolByte ros <<< 7)

/-- `info_dec(b)` (R111, R62). -/
def infoDec (b : Byte) : InfoSection where
  info := (b &&& Config.infoMask).setWidth 5
  highDataPriority := decide ((b >>> 5) &&& 1#8 = 1#8)
  waitForAnswer := decide ((b >>> 6) &&& 1#8 = 1#8)
  readOrSend := decide ((b >>> 7) &&& 1#8 = 1#8)

end Sys2Proof.Machine
end

