-- ==== Sys2Proof/Machine/BitOps.lean ====
section
/-! DEFINITION. BitOps.lean: `SETBIT` and `GETBIT` (`40_bitops.md`). -/

namespace Sys2Proof.Machine

/-- `SETBIT byte, index, value` (R100). -/
def execSetbit (byte index : Byte) (value : Bool) (s : State) : Host.Outcome State Fault Refusal :=
  finish (.setbit <$> setBit byte index value) s

/-- `GETBIT byte, index` (R101). -/
def execGetbit (byte index : Byte) (s : State) : Host.Outcome State Fault Refusal :=
  finish (.getbit <$> getBit byte index) s

end Sys2Proof.Machine
end

