-- ==== Sys2Proof/WellFormed.lean ====
section
/-! DEFINITION. WellFormed.lean: which requests exist. Every term of `Instr` is an operation of the block: operand widths
are in the types, and an index above 7 or an info value above 31 is legal to request (R100, R110). What a term can get
wrong is the length of a buffer, which the 17-bit port `ILEN` must express (R7, R26). -/

namespace Sys2Proof

/-- Every offset of the buffer is a 17-bit offset and its length is a 17-bit length (R25: "`ILEN < 2^17`"). -/
def Memory.wf (m : Memory) : Bool :=
  decide (m.length < 2 ^ Config.lenBits)

/-- The request can be presented: its buffer's length fits `ILEN` (R26). -/
def Request.wf (r : Request) : Bool :=
  Memory.wf r.ibuf

/-- The value of the port `ILEN` (R26). -/
def Request.ilen (r : Request) : BitVec Config.lenBits :=
  BitVec.ofNat Config.lenBits r.ibuf.length

/-- The input can be presented. Reset always can (R220). -/
def Input.wf : Input → Bool
  | .request r => r.wf
  | .reset => true

end Sys2Proof
end

