-- ==== Sys2Proof/Machine/Operands.lean ====
section
/-! DEFINITION. Operands.lean: the operands an operation takes from outside its command word: the bytes and the length of
`IBUF` (`30_encoding.md` R80), and the encoder's packet number, which may come from `SEQ` (`44_encoder.md` R141). -/

namespace Sys2Proof.Machine

/-- `ILEN` of the request being performed (R25, R26). -/
def State.ilen (s : State) : Nat := s.ibuf.length

/-- The packet number of a frame: `PN`, or `SEQ` when it is omitted (R141). -/
def packetNumber (pn : Option Word) (s : State) : Word :=
  match pn with
  | some v => v
  | none => s.seq

/-- The last effect of a successful encode: `SEQ <- trunc_32(SEQ + 1)` when the packet number was omitted (R141). -/
def advanceSeq (pn : Option Word) (s : State) : State :=
  match pn with
  | some _ => s
  | none => writeSeq (s.seq.toNat + 1) s

/-- End an encode: a packet is delivered and the counter advanced as one action (R46, R49); a failure leaves the counter
alone (R192). -/
def finishEncode (pn : Option Word) (r : Op Memory) (s : State) : Host.Outcome State Fault Refusal :=
  match r with
  | .ok p => .next (respond (.packet p) (advanceSeq pn s))
  | .error (.raise f) => .next (takeFailure f s)
  | .error .readPastEnd => .fault .readPastEnd

end Sys2Proof.Machine
end

