-- ==== Sys2Proof/Machine/Checksum.lean ====
section
/-! DEFINITION. Checksum.lean: the checksum engine and `CKSUM` (`42_checksum.md`). -/

namespace Sys2Proof.Machine

/-- The sum of the bytes as unsigned numbers, in an accumulator that loses nothing (R120). -/
def sumBytes : Memory → Nat
  | [] => 0
  | b :: bs => b.toNat + sumBytes bs

/-- `((sum ^ 0xFF) + 1) & 0xFF` (R120). -/
def negateSum (sum : Nat) : Byte :=
  BitVec.ofNat 8 (((sum ^^^ 0xFF) + 1) &&& 0xFF)

/-- `checksum(B, n)` (R120): reads exactly `B[0..n)`. -/
def checksum (buf : Memory) (n : Nat) : Op Byte := do
  let bytes ← readRange buf 0 n
  pure (negateSum (sumBytes bytes))

/-- `CKSUM [bytes]` (R122): the whole input buffer. -/
def execCksum (s : State) : Host.Outcome State Fault Refusal :=
  finish (.cksum <$> checksum s.ibuf s.ilen) s

end Sys2Proof.Machine
end

