-- ==== Sys2Proof/Machine/Crc.lean ====
section
/-! DEFINITION. Crc.lean: the CRC-32 engine and `CRC32` (`43_crc32.md`). -/

namespace Sys2Proof.Machine

/-- One shift step (R130): the low bit is shifted out, a zero enters bit 31, and the polynomial is applied when the bit
shifted out is 1. -/
def crcShift (crc : Word) : Word :=
  if crc &&& 1#32 = 1#32 then (crc >>> 1) ^^^ Config.crcPoly else crc >>> 1

/-- `k` shift steps. -/
def crcShifts : Nat → Word → Word
  | 0, crc => crc
  | k + 1, crc => crcShifts k (crcShift crc)

/-- One input byte: it enters the low 8 bits, then 8 shift steps (R130). -/
def crcByte (crc : Word) (b : Byte) : Word :=
  crcShifts 8 (crc ^^^ b.setWidth 32)

/-- The register after the bytes, from a given register. -/
def crcBytes : Word → Memory → Word
  | crc, [] => crc
  | crc, b :: bs => crcBytes (crcByte crc b) bs

/-- `crc32(B, n)` (R130): reads exactly `B[0..n)`; the register starts at `0xFFFFFFFF` and is complemented at the end. -/
def crc32 (buf : Memory) (n : Nat) : Op Word := do
  let bytes ← readRange buf 0 n
  pure (crcBytes Config.crcInit bytes ^^^ Config.crcXorOut)

/-- `CRC32 [bytes]` (R132): the whole input buffer. -/
def execCrc32 (s : State) : Host.Outcome State Fault Refusal :=
  finish (.crc32 <$> crc32 s.ibuf s.ilen) s

end Sys2Proof.Machine
end

