-- ==== Sys2Proof/Machine/Decoder.lean ====
section
/-! DEFINITION. Decoder.lean: the frame decoder with its marker detector, `DEC.S` and `DEC.P` (`45_decoder.md`). -/

namespace Sys2Proof.Machine

/-- The marker detector (R171): two fixed positions of one packet. -/
def markersWrong (startByte stopByte : Byte) : Bool :=
  startByte != Config.startByte || stopByte != Config.stopByte

/-- Field extraction of a secure packet that has passed its checks (R165): every field is the received value. -/
def secureFields (p : Memory) (cs : Half) (crc : Word) (startByte stopByte hck : Byte) : Op Frame := do
  let totalDataLen ← be16 p 1
  let deviceID ← readByte p 3
  let pn ← be32 p 4
  let ib ← readByte p 8
  let content ← readRange p 12 cs.toNat
  pure {
    packetNumber := pn
    infoSection := infoDec ib
    content := content
    secureHeader := some {
      startByte := startByte
      totalDataLen := totalDataLen
      deviceID := deviceID
      contentSize := cs
      headerChecksum := hck
      crc := crc
      stopByte := stopByte } }

/-- Checks 3 to 5 of R161, with the `contentSize` the checksum has covered. -/
def decodeSecureBody (p : Memory) (hck : Byte) (cs : Half) : Op Frame :=
  if p.length < Config.secureOverhead + cs.toNat then raise .frameTooShort
  else do
    let stored ← be32 p (12 + cs.toNat)
    let crc ← crc32 p (p.length - Config.crcTail)
    if crc ≠ stored then raise .crcMismatch
    else do
      let startByte ← readByte p 0
      let stopByte ← readByte p (16 + cs.toNat)
      if markersWrong startByte stopByte then raise .framingError
      else secureFields p cs stored startByte stopByte hck

/-- The frame of `DEC.S` (R160), the five checks in the order of R161. -/
def decodeSecure (p : Memory) : Op Frame :=
  if p.length < Config.secureOverhead then raise .frameTooShort
  else do
    let ck ← checksum p Config.hdrCkLen
    let hck ← readByte p 11
    if ck ≠ hck then raise .checksumMismatch
    else do
      let cs ← be16 p 9
      decodeSecureBody p hck cs

/-- The frame of `DEC.P` (R180, R181). -/
def decodePlain (p : Memory) : Op Frame :=
  if p.length < Config.plainOverhead then raise .frameTooShort
  else if Config.maxContent < p.length - Config.plainOverhead then raise .contentTooLarge
  else do
    let pn ← be32 p 0
    let ib ← readByte p 4
    let content ← readRange p 5 (p.length - Config.plainOverhead)
    pure { packetNumber := pn, infoSection := infoDec ib, content := content, secureHeader := none }

/-- `DEC.S [packet]` (R160). -/
def execDecS (s : State) : Host.Outcome State Fault Refusal :=
  finish (.frame <$> decodeSecure s.ibuf) s

/-- `DEC.P [packet]` (R180). -/
def execDecP (s : State) : Host.Outcome State Fault Refusal :=
  finish (.frame <$> decodePlain s.ibuf) s

end Sys2Proof.Machine
end

