-- ==== Sys2Proof/Machine/Encoder.lean ====
section
/-! DEFINITION. Encoder.lean: the frame encoder, `ENC.S` and `ENC.P` (`44_encoder.md`; wire formats `30_encoding.md` R60,
R61). -/

namespace Sys2Proof.Machine

/-- Bytes 0 to 10 of a secure packet with `n` content bytes: `startByte`, `totalDataLen` (R143), `deviceID`,
`packetNumber`, `infoByte` (R142), `contentSize` (R60). -/
def secureHeaderBytes (hdp wfa ros : Bool) (info dev : Byte) (pn : Word) (n : Nat) : Memory :=
  [Config.startByte] ++ beBytes 2 (Config.secureOverhead + n) ++ [dev] ++ beBytes 4 pn.toNat
    ++ [infoEnc hdp wfa ros info] ++ beBytes 2 n

/-- The packet of `ENC.S` (R144). The checksum is taken after bytes 0 to 10 are final, the CRC over everything before
itself, which is `packet[0..L-5)`. -/
def encodeSecure (hdp wfa ros : Bool) (info dev : Byte) (pn : Word) (content : Memory) : Op Memory :=
  if Config.maxContent < content.length then raise .contentTooLarge
  else do
    let header := secureHeaderBytes hdp wfa ros info dev pn content.length
    let ck ← checksum header Config.hdrCkLen
    let body := header ++ [ck] ++ content
    let crc ← crc32 body (Config.secureOverhead + content.length - Config.crcTail)
    pure (body ++ beBytes 4 crc.toNat ++ [Config.stopByte])

/-- The packet of `ENC.P` (R145, R61). -/
def encodePlain (hdp wfa ros : Bool) (info : Byte) (pn : Word) (content : Memory) : Op Memory :=
  if Config.maxContent < content.length then raise .contentTooLarge
  else .ok (beBytes 4 pn.toNat ++ [infoEnc hdp wfa ros info] ++ content)

/-- `ENC.S hdp, wfa, ros, info, dev, pn|auto, [content]` (R144). -/
def execEncS (hdp wfa ros : Bool) (info dev : Byte) (pn : Option Word) (s : State) :
    Host.Outcome State Fault Refusal :=
  finishEncode pn (encodeSecure hdp wfa ros info dev (packetNumber pn s) s.ibuf) s

/-- `ENC.P hdp, wfa, ros, info, dev, pn|auto, [content]` (R145). -/
def execEncP (hdp wfa ros : Bool) (info : Byte) (pn : Option Word) (s : State) :
    Host.Outcome State Fault Refusal :=
  finishEncode pn (encodePlain hdp wfa ros info (packetNumber pn s) s.ibuf) s

end Sys2Proof.Machine
end

