-- ==== Sys2Proof/Machine/InfoByte.lean ====
section
/-! DEFINITION. InfoByte.lean: `INFOENC` and `INFODEC` (`41_infobyte.md`). -/

namespace Sys2Proof.Machine

/-- `INFOENC hdp, wfa, ros, info` (R110). -/
def execInfoenc (hdp wfa ros : Bool) (info : Byte) (s : State) : Host.Outcome State Fault Refusal :=
  finish (.ok (.infoenc (infoEnc hdp wfa ros info))) s

/-- `INFODEC byte` (R111). -/
def execInfodec (byte : Byte) (s : State) : Host.Outcome State Fault Refusal :=
  finish (.ok (.infodec (infoDec byte))) s

end Sys2Proof.Machine
end

