-- ==== Sys2Proof/Machine/Dispatch.lean ====
section
/-! DEFINITION. Dispatch.lean: the meaning of each operation, one arm a constructor (`30_encoding.md` R82). -/

namespace Sys2Proof.Machine

def exec (i : Instr) (s : State) : Host.Outcome State Fault Refusal :=
  match i with
  | .setbit byte index value => Sys2Proof.Machine.execSetbit byte index value s
  | .getbit byte index => Sys2Proof.Machine.execGetbit byte index s
  | .infoenc hdp wfa ros info => Sys2Proof.Machine.execInfoenc hdp wfa ros info s
  | .infodec byte => Sys2Proof.Machine.execInfodec byte s
  | .cksum => Sys2Proof.Machine.execCksum s
  | .crc32 => Sys2Proof.Machine.execCrc32 s
  | .encS hdp wfa ros info dev pn => Sys2Proof.Machine.execEncS hdp wfa ros info dev pn s
  | .encP hdp wfa ros info pn => Sys2Proof.Machine.execEncP hdp wfa ros info pn s
  | .decS => Sys2Proof.Machine.execDecS s
  | .decP => Sys2Proof.Machine.execDecP s

end Sys2Proof.Machine
end

