-- ==== Sys2Proof/Machine/Step.lean ====
section
/-! DEFINITION. Step.lean: one step of the block: it takes the host's next input and answers it whole
(`20_memory.md` R46; `10_state.md` R30). A step is one operation; there is no program counter (R22). -/

namespace Sys2Proof.Machine

/-- Perform an accepted request: the operation its command word selects, or `IllegalCommand`, which comes before every
other check (R83, R200). -/
def perform (cmd : Cmd) (s : State) : Host.Outcome State Fault Refusal :=
  match decode cmd with
  | .ok i => exec i s
  | .error _ => .next (takeFailure .illegalCommand s)

/-- One step. -/
def step (s : State) : Host.Outcome State Fault Refusal :=
  match s.inputs with
  | [] => .next (idle s)
  | .reset :: rest => .next (applyReset rest s)
  | .request r :: rest => if r.wf then perform r.cmd (accept r rest s) else .refused .overlongRequest

/-- The state in which the host presents this command word next, with the buffer that stands in `ibuf`, and then what it
would have presented. Log entry 2. -/
def State.withFetchWord (s : State) (nbits w : Nat) : State :=
  { s with inputs := .request { cmd := tableWord nbits w, ibuf := s.ibuf } :: s.inputs }

end Sys2Proof.Machine
end

