-- ==== Sys2Proof/Machine/Ports.lean ====
section
/-! DEFINITION. Ports.lean: the signal-level binding of a response (`10_state.md` R29) and the status codes
(`60_exceptions.md` R191). A port the response does not drive is `none`: "the port's value is not part of the response". -/

namespace Sys2Proof.Machine

/-- The numeric code of a failure (R191). -/
def failureCode : Failure → BitVec 8
  | .invalidArgument => 0x01#8
  | .contentTooLarge => 0x02#8
  | .frameTooShort => 0x03#8
  | .framingError => 0x04#8
  | .checksumMismatch => 0x05#8
  | .crcMismatch => 0x06#8
  | .illegalCommand => 0x07#8

/-- The numeric code of a status (R191). -/
def statusCode : Status → BitVec 8
  | .ok => 0x00#8
  | .failed f => failureCode f

/-- The status of a response (R29, R190). -/
def responseStatus : Response → Status
  | .failure f => .failed f
  | .setbit _ => .ok
  | .getbit _ => .ok
  | .infoenc _ => .ok
  | .infodec _ => .ok
  | .cksum _ => .ok
  | .crc32 _ => .ok
  | .packet _ => .ok
  | .frame _ => .ok

/-- `STATUS[7:0]`, driven by every response. -/
def portStatus (r : Response) : BitVec 8 :=
  statusCode (responseStatus r)

/-- `RB[7:0]`: the byte results, and for `GETBIT` the bit in `RB[0]` with `RB[7:1] = 0`. -/
def portRB : Response → Option Byte
  | .setbit b => some b
  | .getbit v => some ((BitVec.ofBool v).setWidth 8)
  | .infoenc b => some b
  | .cksum b => some b
  | .failure _ => none
  | .infodec _ => none
  | .crc32 _ => none
  | .packet _ => none
  | .frame _ => none

/-- `RW[31:0]`: the `CRC32` result. -/
def portRW : Response → Option Word
  | .crc32 w => some w
  | .failure _ => none
  | .setbit _ => none
  | .getbit _ => none
  | .infoenc _ => none
  | .infodec _ => none
  | .cksum _ => none
  | .packet _ => none
  | .frame _ => none

/-- `OBUF[0..OLEN)`: the packet of an encode, the content of a decode (R25). -/
def portOBUF : Response → Option Memory
  | .packet p => some p
  | .frame f => some f.content
  | .failure _ => none
  | .setbit _ => none
  | .getbit _ => none
  | .infoenc _ => none
  | .infodec _ => none
  | .cksum _ => none
  | .crc32 _ => none

/-- `OLEN[16:0]`, the length of `OBUF`. -/
def portOLEN (r : Response) : Option (BitVec Config.lenBits) :=
  (portOBUF r).map fun m => BitVec.ofNat Config.lenBits m.length

/-- The decoded frame, which drives the `F_` ports. -/
def frameOf : Response → Option Frame
  | .frame f => some f
  | .failure _ => none
  | .setbit _ => none
  | .getbit _ => none
  | .infoenc _ => none
  | .infodec _ => none
  | .cksum _ => none
  | .crc32 _ => none
  | .packet _ => none

/-- The info section on `F_INFO`, `F_HDP`, `F_WFA`, `F_ROS`: a decoded frame's, or the result of `INFODEC`. -/
def infoOf : Response → Option InfoSection
  | .infodec i => some i
  | .frame f => some f.infoSection
  | .failure _ => none
  | .setbit _ => none
  | .getbit _ => none
  | .infoenc _ => none
  | .cksum _ => none
  | .crc32 _ => none
  | .packet _ => none

/-- The secure header of a decoded secure frame. -/
def secureOf (r : Response) : Option SecureHeader :=
  (frameOf r).bind (·.secureHeader)

def portFPN (r : Response) : Option Word := (frameOf r).map (·.packetNumber)
def portFINFO (r : Response) : Option (BitVec 5) := (infoOf r).map (·.info)
def portFHDP (r : Response) : Option Bool := (infoOf r).map (·.highDataPriority)
def portFWFA (r : Response) : Option Bool := (infoOf r).map (·.waitForAnswer)
def portFROS (r : Response) : Option Bool := (infoOf r).map (·.readOrSend)
/-- `F_SEC`: 1 when `secureHeader` is present. -/
def portFSEC (r : Response) : Option Bool := (frameOf r).map (·.secureHeader.isSome)
def portFSTART (r : Response) : Option Byte := (secureOf r).map (·.startByte)
def portFTLEN (r : Response) : Option Half := (secureOf r).map (·.totalDataLen)
def portFDEV (r : Response) : Option Byte := (secureOf r).map (·.deviceID)
def portFCSIZE (r : Response) : Option Half := (secureOf r).map (·.contentSize)
def portFHCK (r : Response) : Option Byte := (secureOf r).map (·.headerChecksum)
def portFCRC (r : Response) : Option Word := (secureOf r).map (·.crc)
def portFSTOP (r : Response) : Option Byte := (secureOf r).map (·.stopByte)

end Sys2Proof.Machine
end

