-- ==== Sys2Proof/Safety.lean ====
section
/-! DEFINITION. Safety.lean: what a good state is, in the terms the statements use: the buffer fits its port, and a
response says only what the accepted bytes bear out (`10_state.md` R25, R28; `60_exceptions.md` R208). -/

namespace Sys2Proof.Machine

/-- A secure header a decoder may deliver over the packet `p` with this content (R28): the markers are right, the sizes
agree, and the checksum and the CRC are those of the received bytes. -/
def secureHeaderSound (p content : Memory) (h : SecureHeader) : Prop :=
  h.startByte = Config.startByte ∧ h.stopByte = Config.stopByte ∧
  h.contentSize.toNat = content.length ∧ Config.secureOverhead + content.length ≤ p.length ∧
  checksum p Config.hdrCkLen = .ok h.headerChecksum ∧
  crc32 p (p.length - Config.crcTail) = .ok h.crc

/-- A frame a decoder may deliver over the packet `p` (R28, R180): content of at most 65535 bytes taken from the packet. -/
def frameSound (p : Memory) (f : Frame) : Prop :=
  f.content.length ≤ Config.maxContent ∧
  match f.secureHeader with
  | some h => secureHeaderSound p f.content h
  | none => Config.plainOverhead + f.content.length = p.length

/-- A packet an encoder may deliver for the content `c` (R44, R146): never longer than `17 + 65535` bytes. -/
def packetSound (c bytes : Memory) : Prop :=
  c.length ≤ Config.maxContent ∧
  (bytes.length = Config.secureOverhead + c.length ∨ bytes.length = Config.plainOverhead + c.length)

/-- A response that fits the bytes of the request it answers. -/
def responseSound (ibuf : Memory) : Response → Prop
  | .packet bytes => packetSound ibuf bytes
  | .frame f => frameSound ibuf f
  | .failure _ => True
  | .setbit _ => True
  | .getbit _ => True
  | .infoenc _ => True
  | .infodec _ => True
  | .cksum _ => True
  | .crc32 _ => True

/-- The invariant of the block: `IBUF` has a 17-bit length, and the response delivered last is sound for it. -/
def Inv (s : State) : Prop :=
  Memory.wf s.ibuf = true ∧ ∀ r, s.rsp = some r → responseSound s.ibuf r

/-- The request draws a number from `SEQ` if it is performed: an encode with `PNV = 0` whose content is not too long
(R20, R140, R141). -/
def drawsNumber (r : Request) : Bool :=
  match decode r.cmd with
  | .ok (.encS _ _ _ _ _ none) => decide (r.ibuf.length ≤ Config.maxContent)
  | .ok (.encP _ _ _ _ none) => decide (r.ibuf.length ≤ Config.maxContent)
  | _ => false

end Sys2Proof.Machine
end

