-- ==== Sys2Proof/Certificates/Slice0/Obligations.lean ====
section
/-! DEFINITION. Obligations.lean: what is claimed of the block, for the provers. Each docstring names the rule or section of
the spec it formalises. Where a clause rests on one of the spec's own decisions D1 to D21 (`92_eei_decisions.md`), the
docstring names it; where it rests on a choice of this model, it names the log entry. -/

open Sys2Proof Sys2Proof.Machine

namespace Sys2Proof.Spec

/-- The sum of the bytes as unsigned numbers. -/
def byteSum (bs : Memory) : Nat :=
  (bs.map BitVec.toNat).sum

/-- One step of the bit-at-a-time CRC of R130: `out = (crc ^ bit) & 1`, then the same shift and conditional
exclusive-or. -/
def crcBit (crc : Word) (bit : Bool) : Word :=
  if crc.getLsbD 0 != bit then (crc >>> 1) ^^^ 0xEDB88320#32 else crc >>> 1

/-- The bits of the bytes in the order the CRC takes them: bit 0 of each byte first. -/
def crcBits (bs : Memory) : List Bool :=
  bs.flatMap fun b => (List.range 8).map fun j => b.getLsbD j

/-- The CRC-32 of the bytes by the bit-at-a-time form. -/
def bitSerialCrc (bs : Memory) : Word :=
  (crcBits bs).foldl crcBit 0xFFFFFFFF#32 ^^^ 0xFFFFFFFF#32

/-- The number the `contentSize` field of a secure packet holds, `BE16(P, 9)`. -/
def declaredSize (p : Memory) : Nat :=
  (p.getD 9 0).toNat * 256 + (p.getD 10 0).toNat

/-- Check 2 of R161 passes. -/
def checksumPasses (p : Memory) : Prop :=
  ∃ ck, checksum p 11 = .ok ck ∧ p[11]? = some ck

/-- Check 4 of R161 passes. -/
def crcPasses (p : Memory) : Prop :=
  ∃ c, crc32 p (p.length - 5) = .ok c ∧ be32 p (12 + declaredSize p) = .ok c

/-- Check 5 of R161 passes. -/
def markersPass (p : Memory) : Prop :=
  p[0]? = some 0xFF#8 ∧ p[16 + declaredSize p]? = some 0xFE#8

/-- The operation answers with this failure and changes nothing but the response port. -/
def failsWith (i : Instr) (s : State) (f : Failure) : Prop :=
  exec i s = .next { s with rsp := some (.failure f) }

/-- The operation answers with this result and changes nothing but the response port. -/
def answers (i : Instr) (s : State) (r : Response) : Prop :=
  exec i s = .next { s with rsp := some r }

/-- The bits of the command word that the row fixes or that R85's text form of its mnemonic binds: those the operation
uses, and for `ENC.P` the field `B` of its ignored operand `dev`. -/
def boundBits (row : OpRow) : Cmd :=
  if row.mnemonic = "ENC.P" then row.used ||| 0x00000000FF000000#64 else row.used

/-- The ports carry the values of the response (R29): `RB`, `RW`, `OBUF` with `OLEN`, and the `F_` ports, each its own. -/
def portsCarry : Response → Prop
  | .failure _ => True
  | .setbit b => portRB (.setbit b) = some b
  | .getbit v => ∃ b, portRB (.getbit v) = some b ∧ b.getLsbD 0 = v ∧ ∀ j, 1 ≤ j → b.getLsbD j = false
  | .infoenc b => portRB (.infoenc b) = some b
  | .cksum b => portRB (.cksum b) = some b
  | .crc32 w => portRW (.crc32 w) = some w
  | .infodec x =>
    portFINFO (.infodec x) = some x.info ∧ portFHDP (.infodec x) = some x.highDataPriority ∧
    portFWFA (.infodec x) = some x.waitForAnswer ∧ portFROS (.infodec x) = some x.readOrSend
  | .packet p => portOBUF (.packet p) = some p ∧ (portOLEN (.packet p)).map BitVec.toNat = some p.length
  | .frame f =>
    portOBUF (.frame f) = some f.content ∧ (portOLEN (.frame f)).map BitVec.toNat = some f.content.length ∧
    portFPN (.frame f) = some f.packetNumber ∧ portFINFO (.frame f) = some f.infoSection.info ∧
    portFHDP (.frame f) = some f.infoSection.highDataPriority ∧
    portFWFA (.frame f) = some f.infoSection.waitForAnswer ∧ portFROS (.frame f) = some f.infoSection.readOrSend ∧
    portFSEC (.frame f) = some f.secureHeader.isSome ∧
    portFSTART (.frame f) = f.secureHeader.map (·.startByte) ∧
    portFTLEN (.frame f) = f.secureHeader.map (·.totalDataLen) ∧
    portFDEV (.frame f) = f.secureHeader.map (·.deviceID) ∧
    portFCSIZE (.frame f) = f.secureHeader.map (·.contentSize) ∧
    portFHCK (.frame f) = f.secureHeader.map (·.headerChecksum) ∧
    portFCRC (.frame f) = f.secureHeader.map (·.crc) ∧
    portFSTOP (.frame f) = f.secureHeader.map (·.stopByte)

/-- The failures an operation may raise, by R191's column "Raised by". -/
def mayRaise : Instr → List Failure
  | .setbit _ _ _ => [.invalidArgument]
  | .getbit _ _ => [.invalidArgument]
  | .infoenc _ _ _ _ => []
  | .infodec _ => []
  | .cksum => []
  | .crc32 => []
  | .encS _ _ _ _ _ _ => [.contentTooLarge]
  | .encP _ _ _ _ _ => [.contentTooLarge]
  | .decS => [.frameTooShort, .framingError, .checksumMismatch, .crcMismatch]
  | .decP => [.contentTooLarge, .frameTooShort]

end Sys2Proof.Spec

open Sys2Proof.Spec

/-! ### The command word -/

/-- Decoding the word the encoder writes gives the operation back, whatever the operands (R80, R82, R85; the layout is
decision D1). -/
def Obligations.DecodeInvertsEncode : Prop :=
  ∀ i : Instr, decode (encode i) = .ok i

/-- Re-encoding the operation a word selects gives the word with the ignored bits cleared (R81, R85; decisions D1, D9,
D19): the bits its row marks as used, less `PN` when an encode omits its packet number. -/
def Obligations.EncodeOfDecodeKeepsExactlyTheUsedBits : Prop :=
  ∀ (cmd : Cmd) (i : Instr), decode cmd = .ok i →
    ∃ row ∈ opTable, row.mnemonic = i.mnemonic ∧
      encode i = if cmd.extractLsb' 0 8 = 0x07#8 ∧ cmd.getLsbD 9 = false
        then cmd &&& row.used &&& 0x00000000FFFFFFFF#64 else cmd &&& row.used

/-- R82 (decision D1): a word selects the operation of a row exactly when `CMD & mask = match`. -/
def Obligations.RowSelectsItsOperation : Prop :=
  ∀ (cmd : Cmd), ∀ row ∈ opTable,
    (cmd &&& row.mask = row.pattern ↔ ∃ i, decode cmd = .ok i ∧ i.mnemonic = row.mnemonic)

/-- R82 (decision D1): "The ten rows are disjoint and together cover exactly the command words with `RSV = 0` and `OP` in
`0x01 .. 0x08`." -/
def Obligations.RowsAreDisjointAndCoverTheLegalWords : Prop :=
  ∀ cmd : Cmd,
    ((∃ row ∈ opTable, cmd &&& row.mask = row.pattern) ↔
      cmd.extractLsb' 14 2 = 0#2 ∧ 1 ≤ (cmd.extractLsb' 0 8).toNat ∧ (cmd.extractLsb' 0 8).toNat ≤ 8) ∧
    ∀ row ∈ opTable, ∀ row' ∈ opTable,
      cmd &&& row.mask = row.pattern → cmd &&& row'.mask = row'.pattern → row = row'

/-- The worked command words of `30_encoding.md` section 9 decode to the operations they are written for, and the encoder
writes those words (decisions D1, D21). -/
def Obligations.WorkedCommandWordsDecode : Prop :=
  decode 0x0000000005000401#64 = .ok (.setbit 0x00 5 true) ∧
  decode 0x0000000007A10002#64 = .ok (.getbit 0xA1 7) ∧
  decode 0x0000000000012803#64 = .ok (.infoenc true false true 1) ∧
  decode 0x0000000000A10004#64 = .ok (.infodec 0xA1) ∧
  decode 0x0000000000000005#64 = .ok .cksum ∧
  decode 0x0000000000000006#64 = .ok .crc32 ∧
  decode 0x000000640C012B07#64 = .ok (.encS true false true 1 12 (some 100)) ∧
  decode 0x0000000000012807#64 = .ok (.encP true false true 1 none) ∧
  decode 0x0000000000000108#64 = .ok .decS ∧
  decode 0x0000000000000008#64 = .ok .decP ∧
  encode (.encS true false true 1 12 (some 100)) = 0x000000640C012B07#64

/-- R85 (decisions D1, D19, D21): the word of every text form decodes to the operation it stands for; `ENC.P` binds `dev` to
`B`, and steps on two of its words that differ in `dev` alone are equal; fields the mnemonic does not bind are 0, `PN` with
`auto` too; and the pseudo-forms stand for the `.S` and the `.P` form with the same operands. -/
def Obligations.TextFormsSelectTheirOperations : Prop :=
  (∀ f : TextForm, decode f.word = .ok f.instr ∧
    ∃ row ∈ opTable, row.mnemonic = f.instr.mnemonic ∧ f.word &&& ~~~boundBits row = 0#64) ∧
  (∀ (hdp wfa ros : Bool) (info dev : Byte) (pn : Option Word),
    (TextForm.encP hdp wfa ros info dev pn).word.extractLsb' 24 8 = dev ∧
    (TextForm.encP hdp wfa ros info dev pn).word.extractLsb' 32 32 = pn.getD 0 ∧
    (TextForm.encS hdp wfa ros info dev pn).word.extractLsb' 32 32 = pn.getD 0) ∧
  (∀ (hdp wfa ros : Bool) (info dev dev' : Byte) (pn : Option Word) (s : State) (bytes : Memory) (rest : List Input),
    step { s with inputs := .request ((TextForm.encP hdp wfa ros info dev pn).request bytes) :: rest } =
      step { s with inputs := .request ((TextForm.encP hdp wfa ros info dev' pn).request bytes) :: rest }) ∧
  (∀ (hdp wfa ros : Bool) (info dev : Byte) (pn : Option Word),
    TextForm.enc true hdp wfa ros info dev pn = .encS hdp wfa ros info dev pn ∧
    TextForm.enc false hdp wfa ros info dev pn = .encP hdp wfa ros info dev pn ∧
    TextForm.dec true = .decS ∧ TextForm.dec false = .decP)

/-- R81 (decisions D9, D19): a step does not depend on a command field the selected operation does not use, nor on `PN`
when an encode has `PNV = 0`; and the answer to `SETBIT`, `GETBIT`, `INFOENC`, `INFODEC` does not depend on the buffer. -/
def Obligations.UnusedFieldsAreIgnored : Prop :=
  (∀ row ∈ opTable, ∀ c c' : Cmd, c &&& row.mask = row.pattern → c &&& row.used = c' &&& row.used →
    ∀ (s : State) (buf : Memory) (rest : List Input),
      step { s with inputs := .request ⟨c, buf⟩ :: rest } = step { s with inputs := .request ⟨c', buf⟩ :: rest }) ∧
  (∀ c c' : Cmd, c.getLsbD 9 = false → c.extractLsb' 0 8 = 0x07#8 → c.extractLsb' 0 32 = c'.extractLsb' 0 32 →
    ∀ (s : State) (buf : Memory) (rest : List Input),
      step { s with inputs := .request ⟨c, buf⟩ :: rest } = step { s with inputs := .request ⟨c', buf⟩ :: rest }) ∧
  (∀ (c : Cmd) (s : State) (buf buf' : Memory) (rest : List Input),
    c.extractLsb' 14 2 = 0#2 → 1 ≤ (c.extractLsb' 0 8).toNat → (c.extractLsb' 0 8).toNat ≤ 4 →
    Memory.wf buf = true → Memory.wf buf' = true →
    ∃ t t', step { s with inputs := .request ⟨c, buf⟩ :: rest } = .next t ∧
      step { s with inputs := .request ⟨c, buf'⟩ :: rest } = .next t' ∧ t.rsp = t'.rsp ∧ t.seq = t'.seq)

/-! ### The step -/

/-- A step performs the operation the request's command word selects, at the state with the request's buffer in `IBUF`
and the request taken from the host's inputs (`10_state.md` R30, `20_memory.md` R46; the list of inputs is log entry 2). -/
def Obligations.StepPerformsTheDecodedOperation : Prop :=
  ∀ (s : State) (r : Request) (rest : List Input) (i : Instr),
    s.inputs = .request r :: rest → r.wf = true → decode r.cmd = .ok i →
    step s = exec i { s with ibuf := r.ibuf, inputs := rest }

/-- R83, R199, R200 (decision D9): a word with `RSV != 0`, `OP = 0x00` or `OP >= 0x09` is answered with `IllegalCommand`
whatever the buffer, before every other check, and `SEQ` is unchanged. -/
def Obligations.IllegalWordIsAnsweredWithIllegalCommand : Prop :=
  ∀ (s : State) (r : Request) (rest : List Input), s.inputs = .request r :: rest → r.wf = true →
    (r.cmd.extractLsb' 14 2 ≠ 0#2 ∨ (r.cmd.extractLsb' 0 8).toNat = 0 ∨ 9 ≤ (r.cmd.extractLsb' 0 8).toNat) →
    step s = .next { s with ibuf := r.ibuf, inputs := rest, rsp := some (.failure .illegalCommand) }

/-- R220 (decision D18): the whole effect of reset is `SEQ <- 0`; no response is pending after it (R31). `IBUF` is left
alone, which is log entry 5. -/
def Obligations.ResetInputClearsOnlyTheCounter : Prop :=
  ∀ (s : State) (rest : List Input), s.inputs = .reset :: rest →
    step s = .next { s with seq := 0, rsp := none, inputs := rest }

/-- The model's choices, log entries 2 and 3: with nothing presented the block stays as it is, and a request whose buffer
the 17-bit `ILEN` cannot express is refused by name. -/
def Obligations.StepIdlesOrRefusesOverlongRequests : Prop :=
  (∀ s : State, s.inputs = [] → step s = .next s) ∧
  (∀ (s : State) (r : Request) (rest : List Input), s.inputs = .request r :: rest → 2 ^ 17 ≤ r.ibuf.length →
    step s = .refused .overlongRequest)

/-- R31: after reset `SEQ = 0` and no response is pending, and the first operation sees the buffer supplied with it: it runs
at the reset state with that buffer as `IBUF`. -/
def Obligations.ResetStateIsCounterZero : Prop :=
  State.reset.seq = 0 ∧ State.reset.rsp = none ∧
  ∀ (r : Request) (rest : List Input) (i : Instr), r.wf = true → decode r.cmd = .ok i →
    step { State.reset with inputs := .request r :: rest } =
      exec i { State.reset with ibuf := r.ibuf, inputs := rest }

/-- R30: every request gets exactly one response, and `SEQ` is unchanged except by a successful encode with `PNV = 0`,
which adds 1 modulo 2^32 (decisions D5, D6, D10). -/
def Obligations.EveryRequestIsAnswered : Prop :=
  ∀ (s : State) (r : Request) (rest : List Input), s.inputs = .request r :: rest → r.wf = true →
    ∃ t resp, step s = .next t ∧ t.rsp = some resp ∧ t.ibuf = r.ibuf ∧ t.inputs = rest ∧
      t.seq = if drawsNumber r then s.seq + 1 else s.seq

/-- R44: no operation reads past its buffer (every operation answers), and what it delivers in `OBUF` has at most
`17 + 65535 = 65552` bytes, which the 17-bit `OLEN` expresses; an encode refuses longer content before it produces
anything; and 65552 is reached. -/
def Obligations.OperationsStayInsideTheirBuffers : Prop :=
  (∀ (i : Instr) (s : State), ∃ t resp, exec i s = .next t ∧ t.rsp = some resp ∧
    ∀ m, portOBUF resp = some m → m.length ≤ 65552 ∧
      ∃ olen, portOLEN resp = some olen ∧ olen.toNat = m.length) ∧
  (∀ (hdp wfa ros : Bool) (info dev : Byte) (pn : Option Word) (s : State), 65535 < s.ibuf.length →
    failsWith (.encS hdp wfa ros info dev pn) s .contentTooLarge ∧
    failsWith (.encP hdp wfa ros info pn) s .contentTooLarge) ∧
  (∃ (i : Instr) (s t : State) (m : Memory), exec i s = .next t ∧ t.rsp = some (.packet m) ∧ m.length = 65552)

/-- The invariant holds after reset. That no response is pending then is R31; that `IBUF` fits `ILEN` rests on the empty
buffer the model chose for reset (log entry 5, DESIGN CHOICE: the spec gives the buffers no reset value). -/
def Obligations.InvariantHoldsAfterReset : Prop :=
  Inv State.reset

/-- Every step keeps the invariant: the buffer fits `ILEN`, and a delivered frame or packet is one the accepted bytes bear
out: right markers, checksum, CRC and sizes (`10_state.md` R28, `60_exceptions.md` R208). It holds from every state that
has it, not only on runs from reset. -/
def Obligations.EveryStepKeepsTheInvariant : Prop :=
  ∀ s t : State, Inv s → step s = .next t → Inv t

/-- `10_state.md` R25, R27 and `44_encoder.md` R148: the answer to a request and the change of `SEQ` depend on the request
and on `SEQ` only, and on `SEQ` only where the request draws a number from it: not on an earlier response, not on what an
earlier operation left in a buffer, not on what the host will present. -/
def Obligations.AnswerDependsOnRequestAndCounterOnly : Prop :=
  ∀ (s s' : State) (r : Request) (rest rest' : List Input),
    s.inputs = .request r :: rest → s'.inputs = .request r :: rest' → r.wf = true →
    (s.seq = s'.seq ∨ drawsNumber r = false) →
    ∃ t t', step s = .next t ∧ step s' = .next t' ∧ t.rsp = t'.rsp ∧ t.seq - s.seq = t'.seq - s'.seq

/-- R202: a failure is not sticky. The request after a failed one is processed as if the failed one had not been issued,
and repeating the failed request gives the same failure. -/
def Obligations.FailureIsNotSticky : Prop :=
  ∀ (s t : State) (r r' : Request) (rest : List Input) (f : Failure),
    s.inputs = .request r :: .request r' :: rest → r.wf = true → r'.wf = true →
    step s = .next t → t.rsp = some (.failure f) →
    ∃ u, step t = .next u ∧ step { s with inputs := .request r' :: rest } = .next u ∧
      (r' = r → u.rsp = some (.failure f))

/-- R47: two operations that draw no number commute: either order gives the same two responses and leaves `SEQ` alone. -/
def Obligations.OperationsThatDrawNoNumberCommute : Prop :=
  ∀ (s : State) (r r' : Request) (rest : List Input), r.wf = true → r'.wf = true →
    drawsNumber r = false → drawsNumber r' = false →
    ∃ t u t' u',
      step { s with inputs := .request r :: .request r' :: rest } = .next t ∧ step t = .next u ∧
      step { s with inputs := .request r' :: .request r :: rest } = .next t' ∧ step t' = .next u' ∧
      t.rsp = u'.rsp ∧ u.rsp = t'.rsp ∧ u.seq = s.seq ∧ u'.seq = s.seq

/-- R46, R47, R49 (step of 1 and wrap: decisions D5, D6): over any sequence of requests, from any state, `SEQ` advances by
the number of successful encodes with `PNV = 0`, and every request is performed. -/
def Obligations.CounterCountsAutomaticEncodes : Prop :=
  ∀ (rs : List Request) (s : State), s.inputs = rs.map .request → (∀ r ∈ rs, r.wf = true) →
    ∃ t : State, Host.Core.run Sys2Proof.core rs.length s = .next t ∧ t.inputs = [] ∧
      t.seq = s.seq + BitVec.ofNat 32 (rs.countP drawsNumber)

/-! ### Frames -/

/-- The eight operations that are no encode change nothing but the response port: `SEQ`, the host's inputs and every byte
of `IBUF` are as before (R20, R40). -/
def Obligations.NonEncodeOperationsChangeOnlyTheResponse : Prop :=
  ∀ (i : Instr) (s t : State), i.mnemonic ≠ "ENC.S" → i.mnemonic ≠ "ENC.P" → exec i s = .next t →
    t.seq = s.seq ∧ t.inputs = s.inputs ∧ t.ibuf.length = s.ibuf.length ∧
    ∀ off, readByte t.ibuf off = readByte s.ibuf off

/-- An encode changes nothing but the response port and `SEQ`, and `SEQ` only when it succeeds with `PNV = 0`, by 1
(R20, R40, R141; decisions D5, D6, D10). -/
def Obligations.EncodesChangeOnlyTheResponseAndTheCounter : Prop :=
  ∀ (hdp wfa ros : Bool) (info dev : Byte) (pn : Option Word) (s t : State),
    exec (.encS hdp wfa ros info dev pn) s = .next t ∨ exec (.encP hdp wfa ros info pn) s = .next t →
    t.inputs = s.inputs ∧ t.ibuf.length = s.ibuf.length ∧ (∀ off, readByte t.ibuf off = readByte s.ibuf off) ∧
    (t.seq = s.seq ∨ pn = none ∧ t.seq = s.seq + 1 ∧ ∃ p, t.rsp = some (.packet p)) ∧
    (pn.isSome = true → t.seq = s.seq)

/-- R192 (decision D10): a failed operation changes nothing but the response port, which holds the status alone. -/
def Obligations.FailureHasNoSideEffect : Prop :=
  ∀ (i : Instr) (s t : State) (f : Failure), exec i s = .next t → t.rsp = some (.failure f) → failsWith i s f

/-- R191's column "Raised by" (the names are the source's; decisions D4, D14): each operation raises only the failures
listed for it, and no operation raises `IllegalCommand`. -/
def Obligations.OperationsRaiseOnlyTheirFailures : Prop :=
  ∀ (i : Instr) (s t : State) (f : Failure), exec i s = .next t → t.rsp = some (.failure f) →
    f ∈ mayRaise i ∧ f ≠ .illegalCommand

/-- R29 (decisions D2, D8, D10): which ports a response drives is decided by the operation, on a failure only `STATUS`; each
driven port carries its own part of the result; and `STATUS` is 0 exactly on success. -/
def Obligations.ResponseDrivesThePortsOfItsOperation : Prop :=
  ∀ (i : Instr) (s t : State) (r : Response), exec i s = .next t → t.rsp = some r →
    portsCarry r ∧ (portStatus r = 0x00#8 ↔ responseStatus r = .ok) ∧
    (responseStatus r ≠ .ok →
      portRB r = none ∧ portRW r = none ∧ portOBUF r = none ∧ portOLEN r = none ∧ infoOf r = none ∧ frameOf r = none) ∧
    (responseStatus r = .ok →
      ((portRB r).isSome = true ↔ i.mnemonic ∈ ["SETBIT", "GETBIT", "INFOENC", "CKSUM"]) ∧
      ((portRW r).isSome = true ↔ i.mnemonic = "CRC32") ∧
      ((portOBUF r).isSome = true ↔ i.mnemonic ∈ ["ENC.S", "ENC.P", "DEC.S", "DEC.P"]) ∧
      ((infoOf r).isSome = true ↔ i.mnemonic ∈ ["INFODEC", "DEC.S", "DEC.P"]) ∧
      ((portFPN r).isSome = true ↔ i.mnemonic ∈ ["DEC.S", "DEC.P"]) ∧
      (∀ driven ∈ [(portFSTART r).isSome, (portFTLEN r).isSome, (portFDEV r).isSome, (portFCSIZE r).isSome,
        (portFHCK r).isSome, (portFCRC r).isSome, (portFSTOP r).isSome], driven = true ↔ i.mnemonic = "DEC.S") ∧
      (portFSEC r = some true ↔ i.mnemonic = "DEC.S") ∧
      (portFSEC r = some false ↔ i.mnemonic = "DEC.P"))

/-- R191 (the codes are decision D8): each status has the code its table gives, on the port `STATUS` of a failure and of
every success; the codes are distinct and none is above 7. -/
def Obligations.StatusCodesAreDistinct : Prop :=
  (portStatus (.failure .invalidArgument) = 0x01#8 ∧ portStatus (.failure .contentTooLarge) = 0x02#8 ∧
    portStatus (.failure .frameTooShort) = 0x03#8 ∧ portStatus (.failure .framingError) = 0x04#8 ∧
    portStatus (.failure .checksumMismatch) = 0x05#8 ∧ portStatus (.failure .crcMismatch) = 0x06#8 ∧
    portStatus (.failure .illegalCommand) = 0x07#8) ∧
  (∀ r : Response, (∀ f, r ≠ .failure f) → portStatus r = 0x00#8) ∧
  (∀ r : Response, portStatus r = statusCode (responseStatus r)) ∧
  (∀ a b : Status, statusCode a = statusCode b → a = b) ∧
  (∀ a : Status, (statusCode a).toNat < 8) ∧ (∀ a : Status, statusCode a = 0x00#8 ↔ a = .ok)

/-! ### Buffers -/

/-- R11: `MemRead` of 1, 2 or 4 bytes is the number whose most significant byte is at the lowest offset, and `MemWrite`
puts byte `(v >> (8*(n-1-k)))[7:0]` at offset `off + k`. -/
def Obligations.BufferFieldsAreBigEndian : Prop :=
  (∀ (buf : Memory) (off : Nat) (b0 : Byte), buf[off]? = some b0 → memRead buf off 1 = .ok b0.toNat) ∧
  (∀ (buf : Memory) (off : Nat) (b0 b1 : Byte), buf[off]? = some b0 → buf[off + 1]? = some b1 →
    memRead buf off 2 = .ok (b0.toNat * 256 + b1.toNat) ∧
    be16 buf off = .ok (BitVec.ofNat 16 (b0.toNat * 256 + b1.toNat))) ∧
  (∀ (buf : Memory) (off : Nat) (b0 b1 b2 b3 : Byte), buf[off]? = some b0 → buf[off + 1]? = some b1 →
    buf[off + 2]? = some b2 → buf[off + 3]? = some b3 →
    memRead buf off 4 = .ok (b0.toNat * 2 ^ 24 + b1.toNat * 2 ^ 16 + b2.toNat * 2 ^ 8 + b3.toNat) ∧
    be32 buf off = .ok (BitVec.ofNat 32 (b0.toNat * 2 ^ 24 + b1.toNat * 2 ^ 16 + b2.toNat * 2 ^ 8 + b3.toNat))) ∧
  (∀ (before after : Memory) (n v k : Nat), k < n →
    (before ++ beBytes n v ++ after)[before.length + k]? = some (BitVec.ofNat 8 (v >>> (8 * (n - 1 - k)))))

/-- R11, R41: a field read where it was written, at any offset, is the value written, less what the field cannot hold. -/
def Obligations.ReadOfWrittenFieldGivesTheValue : Prop :=
  ∀ (before after : Memory) (n v : Nat),
    memRead (before ++ beBytes n v ++ after) before.length n = .ok (v % 256 ^ n)

/-- R42, R44: a read succeeds at every offset inside the buffer, aligned or not. That a read which reaches past the end does
not succeed is the model's choice (log entry 7, DESIGN CHOICE: the spec gives such a read no value). -/
def Obligations.ReadSucceedsExactlyInsideTheBuffer : Prop :=
  ∀ (buf : Memory) (off n : Nat), 0 < n →
    ((∃ v, memRead buf off n = .ok v) ↔ off + n ≤ buf.length) ∧
    ((∃ m, readRange buf off n = .ok m) ↔ off + n ≤ buf.length)

/-! ### BitOps and the info byte -/

/-- R100 (bit numbering and index type: decision D15): `SETBIT` sets or clears the bit at the index and leaves every other
bit; an index above 7 fails with `InvalidArgument`. -/
def Obligations.SetbitChangesExactlyTheIndexedBit : Prop :=
  ∀ (byte index : Byte) (value : Bool) (s : State),
    (index.toNat ≤ 7 → ∃ b : Byte, answers (.setbit byte index value) s (.setbit b) ∧
      ∀ j < 8, b.getLsbD j = if j = index.toNat then value else byte.getLsbD j) ∧
    (7 < index.toNat → failsWith (.setbit byte index value) s .invalidArgument)

/-- R101 (the range check is decision D4, the numbering D15): `GETBIT` returns the bit at the index; an index above 7 fails
with `InvalidArgument`. -/
def Obligations.GetbitReturnsTheIndexedBit : Prop :=
  ∀ (byte index : Byte) (s : State),
    (index.toNat ≤ 7 → answers (.getbit byte index) s (.getbit (byte.getLsbD index.toNat))) ∧
    (7 < index.toNat → failsWith (.getbit byte index) s .invalidArgument)

/-- R102: the bit round trip, the untouched bits, writing back the bit read, and idempotence. -/
def Obligations.BitOperationsRoundTrip : Prop :=
  ∀ (b i : Byte) (v : Bool), i.toNat ≤ 7 →
    (setBit b i v >>= fun b' => getBit b' i) = .ok v ∧
    (∀ j : Byte, j.toNat ≤ 7 → j ≠ i → (setBit b i v >>= fun b' => getBit b' j) = getBit b j) ∧
    (getBit b i >>= fun w => setBit b i w) = .ok b ∧
    (setBit b i v >>= fun b' => setBit b' i v) = setBit b i v

/-- R110: `INFOENC` packs the low 5 bits of the info operand and the three flags at bits 5, 6 and 7, for every operand. -/
def Obligations.InfoencPacksTheInfoSection : Prop :=
  ∀ (hdp wfa ros : Bool) (info : Byte) (s : State), ∃ b : Byte,
    answers (.infoenc hdp wfa ros info) s (.infoenc b) ∧
    b.toNat = info.toNat % 32 + 32 * hdp.toNat + 64 * wfa.toNat + 128 * ros.toNat

/-- R111: `INFODEC` returns the four fields of the byte, for every byte. -/
def Obligations.InfodecUnpacksTheInfoByte : Prop :=
  ∀ (byte : Byte) (s : State), ∃ x : InfoSection,
    answers (.infodec byte) s (.infodec x) ∧
    byte.toNat = x.info.toNat + 32 * x.highDataPriority.toNat + 64 * x.waitForAnswer.toNat + 128 * x.readOrSend.toNat

/-- R62: the layout of the info byte, bit by bit, in both directions, and every byte re-encodes to itself. -/
def Obligations.InfoByteLayoutIsCanonical : Prop :=
  (∀ (hdp wfa ros : Bool) (info : Byte),
    (∀ j < 5, (infoEnc hdp wfa ros info).getLsbD j = info.getLsbD j) ∧
    (infoEnc hdp wfa ros info).getLsbD 5 = hdp ∧ (infoEnc hdp wfa ros info).getLsbD 6 = wfa ∧
    (infoEnc hdp wfa ros info).getLsbD 7 = ros) ∧
  (∀ b : Byte,
    (∀ j < 5, (infoDec b).info.getLsbD j = b.getLsbD j) ∧ (infoDec b).highDataPriority = b.getLsbD 5 ∧
    (infoDec b).waitForAnswer = b.getLsbD 6 ∧ (infoDec b).readOrSend = b.getLsbD 7 ∧
    infoEnc (infoDec b).highDataPriority (infoDec b).waitForAnswer (infoDec b).readOrSend
      ((infoDec b).info.setWidth 8) = b)

/-- R112: decoding an encoded info section gives it back, and `info_dec` is a bijection of the bytes and the info
sections. -/
def Obligations.InfoByteRoundTrips : Prop :=
  (∀ (hdp wfa ros : Bool) (v : BitVec 5), infoDec (infoEnc hdp wfa ros (v.setWidth 8)) = ⟨hdp, wfa, ros, v⟩) ∧
  Function.Bijective infoDec

/-- R113, R103: the info byte functions are the bit functions at the constant indices 5, 6 and 7, which never fail. -/
def Obligations.InfoByteIsBitOperations : Prop :=
  (∀ (hdp wfa ros : Bool) (v : Byte),
    (setBit (v &&& 0x1F#8) 5 hdp >>= fun x => setBit x 6 wfa >>= fun y => setBit y 7 ros) =
      .ok (infoEnc hdp wfa ros v)) ∧
  (∀ b : Byte, getBit b 5 = .ok (infoDec b).highDataPriority ∧ getBit b 6 = .ok (infoDec b).waitForAnswer ∧
    getBit b 7 = .ok (infoDec b).readOrSend)

/-! ### The checksum -/

/-- R122 with R120 (the operation takes the whole buffer: decision D17): `CKSUM` returns the negation modulo 256 of the sum
of all bytes of `IBUF`. -/
def Obligations.CksumReturnsTheNegatedSum : Prop :=
  ∀ s : State, ∃ c : Byte, answers .cksum s (.cksum c) ∧ c.toNat = (256 - byteSum s.ibuf % 256) % 256

/-- R121 with R120: the summed bytes and their checksum add to 0 modulo 256, the bytes with their checksum appended have
checksum 0, and two byte ranges have the same checksum exactly when their sums agree modulo 256 (so one changed byte is
always seen, the order of the bytes never, and two changes that cancel never). -/
def Obligations.ChecksumIsSelfConsistent : Prop :=
  (∀ (buf : Memory) (n : Nat), n ≤ buf.length → ∃ c : Byte, checksum buf n = .ok c ∧
    (byteSum (buf.take n) + c.toNat) % 256 = 0 ∧ checksum (buf.take n ++ [c]) (n + 1) = .ok 0) ∧
  (∀ (buf buf' : Memory) (n n' : Nat), n ≤ buf.length → n' ≤ buf'.length →
    (checksum buf n = checksum buf' n' ↔ byteSum (buf.take n) % 256 = byteSum (buf'.take n') % 256))

/-! ### The CRC -/

/-- R132 with R130 (the operation takes the whole buffer: decision D17): `CRC32` returns the CRC-32 of all bytes of `IBUF`,
here by the bit-at-a-time form. -/
def Obligations.Crc32ReturnsTheCrcOfTheBuffer : Prop :=
  ∀ s : State, answers .crc32 s (.crc32 (bitSerialCrc s.ibuf))

/-- R130: the byte form and the bit-at-a-time form give the same CRC of any first part of a buffer, and the bytes after it
are not read. -/
def Obligations.CrcByteFormEqualsBitForm : Prop :=
  ∀ (buf : Memory) (n : Nat), n ≤ buf.length → crc32 buf n = .ok (bitSerialCrc (buf.take n))

/-- R131 (a property the spec leaves to be proved from R130): changing the bits inside any window of at most 32
consecutive bits changes the CRC. -/
def Obligations.CrcDetectsEveryChangeWithin32Bits : Prop :=
  ∀ (buf buf' : Memory) (k : Nat), buf.length = buf'.length → buf ≠ buf' →
    (∀ j, j < k ∨ k + 32 ≤ j → (crcBits buf)[j]? = (crcBits buf')[j]?) →
    crc32 buf buf.length ≠ crc32 buf' buf'.length

/-! ### The encoder -/

/-- R144 with R60, R123, R133, R141 to R143 (decisions D5, D6, D7): a secure encode of at most 65535 bytes writes every
field of the secure layout at its offset, with the checksum and the CRC of the bytes before them, and advances `SEQ` by 1
exactly when the packet number was omitted. -/
def Obligations.SecureEncodeWritesTheSecureLayout : Prop :=
  ∀ (hdp wfa ros : Bool) (info dev : Byte) (pn : Option Word) (s : State), s.ibuf.length ≤ 65535 →
    ∃ p : Memory,
      exec (.encS hdp wfa ros info dev pn) s = .next { s with
        rsp := some (.packet p), seq := if pn.isSome then s.seq else s.seq + 1 } ∧
      p.length = 17 + s.ibuf.length ∧ p[0]? = some 0xFF#8 ∧
      be16 p 1 = .ok (BitVec.ofNat 16 (17 + s.ibuf.length)) ∧ p[3]? = some dev ∧
      be32 p 4 = .ok (pn.getD s.seq) ∧ p[8]? = some (infoEnc hdp wfa ros info) ∧
      memRead p 9 2 = .ok s.ibuf.length ∧ checksumPasses p ∧
      readRange p 12 s.ibuf.length = .ok s.ibuf ∧
      (∃ c, crc32 p (p.length - 5) = .ok c ∧ be32 p (12 + s.ibuf.length) = .ok c) ∧
      p[16 + s.ibuf.length]? = some 0xFE#8

/-- R145 with R61, R141, R142 (decisions D5, D6): a plain encode of at most 65535 bytes writes the packet number, the info
byte and the content, and advances `SEQ` by 1 exactly when the packet number was omitted. -/
def Obligations.PlainEncodeWritesThePlainLayout : Prop :=
  ∀ (hdp wfa ros : Bool) (info : Byte) (pn : Option Word) (s : State), s.ibuf.length ≤ 65535 →
    ∃ p : Memory,
      exec (.encP hdp wfa ros info pn) s = .next { s with
        rsp := some (.packet p), seq := if pn.isSome then s.seq else s.seq + 1 } ∧
      p.length = 5 + s.ibuf.length ∧ be32 p 0 = .ok (pn.getD s.seq) ∧
      p[4]? = some (infoEnc hdp wfa ros info) ∧ readRange p 5 s.ibuf.length = .ok s.ibuf

/-- R140: in both modes content of more than 65535 bytes is refused with `ContentTooLarge` and nothing else happens, 65535
is accepted, and this is the only failure of an encode. -/
def Obligations.EncodeRefusesContentOver65535 : Prop :=
  ∀ (hdp wfa ros : Bool) (info dev : Byte) (pn : Option Word) (s : State),
    (65535 < s.ibuf.length →
      failsWith (.encS hdp wfa ros info dev pn) s .contentTooLarge ∧
      failsWith (.encP hdp wfa ros info pn) s .contentTooLarge) ∧
    (s.ibuf.length ≤ 65535 →
      (∃ t p, exec (.encS hdp wfa ros info dev pn) s = .next t ∧ t.rsp = some (.packet p)) ∧
      (∃ t p, exec (.encP hdp wfa ros info pn) s = .next t ∧ t.rsp = some (.packet p)))

/-- R146: a successful `ENC.S` delivers `17 + ILEN` bytes, a successful `ENC.P` `5 + ILEN`, and the port `OLEN` says so. -/
def Obligations.EncodeOutputLengths : Prop :=
  ∀ (hdp wfa ros : Bool) (info dev : Byte) (pn : Option Word) (s t : State) (p : Memory),
    t.rsp = some (.packet p) →
    (exec (.encS hdp wfa ros info dev pn) s = .next t →
      ∃ olen, portOLEN (.packet p) = some olen ∧ olen.toNat = 17 + s.ibuf.length ∧ p.length = 17 + s.ibuf.length) ∧
    (exec (.encP hdp wfa ros info pn) s = .next t →
      ∃ olen, portOLEN (.packet p) = some olen ∧ olen.toNat = 5 + s.ibuf.length ∧ p.length = 5 + s.ibuf.length)

/-- R143 (the truncation is decision D7): `totalDataLen` is the exact packet length up to 65518 content bytes, and the
length less 65536 above that. -/
def Obligations.TotalDataLenIsExactWhereItFits : Prop :=
  ∀ (hdp wfa ros : Bool) (info dev : Byte) (pn : Option Word) (s t : State) (p : Memory),
    exec (.encS hdp wfa ros info dev pn) s = .next t → t.rsp = some (.packet p) →
    (s.ibuf.length ≤ 65518 → memRead p 1 2 = .ok p.length) ∧
    (65518 < s.ibuf.length → memRead p 1 2 = .ok (p.length - 65536))

/-- R141, R49 (one counter for both modes; step and wrap: decisions D5, D6): two automatic encodes in a row, the first
secure and the second plain or the other way round, carry consecutive packet numbers. -/
def Obligations.ModesShareOneCounter : Prop :=
  ∀ (hdp wfa ros hdp' wfa' ros' : Bool) (info dev info' : Byte) (s : State) (c : Memory),
    s.ibuf.length ≤ 65535 → c.length ≤ 65535 →
    (∃ t u p q, exec (.encS hdp wfa ros info dev none) s = .next t ∧ t.rsp = some (.packet p) ∧
      exec (.encP hdp' wfa' ros' info' none) { t with ibuf := c } = .next u ∧ u.rsp = some (.packet q) ∧
      be32 p 4 = .ok s.seq ∧ be32 q 0 = .ok (s.seq + 1) ∧ u.seq = s.seq + 2) ∧
    (∃ t u p q, exec (.encP hdp' wfa' ros' info' none) s = .next t ∧ t.rsp = some (.packet p) ∧
      exec (.encS hdp wfa ros info dev none) { t with ibuf := c } = .next u ∧ u.rsp = some (.packet q) ∧
      be32 p 0 = .ok s.seq ∧ be32 q 4 = .ok (s.seq + 1) ∧ u.seq = s.seq + 2)

/-! ### The decoder -/

/-- R160 with R165: a packet that passes the five checks of R161 is answered with the frame of its received fields, and
nothing else changes (no check of `totalDataLen`, bytes after the stop byte ignored: decisions D12, D13). -/
def Obligations.SecureDecodeDeliversTheReceivedFields : Prop :=
  ∀ s : State, 17 ≤ s.ibuf.length → checksumPasses s.ibuf → 17 + declaredSize s.ibuf ≤ s.ibuf.length →
    crcPasses s.ibuf → markersPass s.ibuf →
    ∃ (f : Frame) (h : SecureHeader), answers .decS s (.frame f) ∧ f.secureHeader = some h ∧
      s.ibuf[0]? = some h.startByte ∧ be16 s.ibuf 1 = .ok h.totalDataLen ∧ s.ibuf[3]? = some h.deviceID ∧
      be32 s.ibuf 4 = .ok f.packetNumber ∧ s.ibuf[8]?.map infoDec = some f.infoSection ∧
      be16 s.ibuf 9 = .ok h.contentSize ∧ s.ibuf[11]? = some h.headerChecksum ∧
      readRange s.ibuf 12 (declaredSize s.ibuf) = .ok f.content ∧
      be32 s.ibuf (12 + declaredSize s.ibuf) = .ok h.crc ∧
      s.ibuf[16 + declaredSize s.ibuf]? = some h.stopByte

/-- R165: every field of a frame `DEC.S` delivers is the received value at its offset. -/
def Obligations.SecureFrameFieldsAreTheReceivedValues : Prop :=
  ∀ (s t : State) (f : Frame), exec .decS s = .next t → t.rsp = some (.frame f) →
    ∃ h : SecureHeader, f.secureHeader = some h ∧
      s.ibuf[0]? = some h.startByte ∧ be16 s.ibuf 1 = .ok h.totalDataLen ∧ s.ibuf[3]? = some h.deviceID ∧
      be32 s.ibuf 4 = .ok f.packetNumber ∧ s.ibuf[8]?.map infoDec = some f.infoSection ∧
      be16 s.ibuf 9 = .ok h.contentSize ∧ s.ibuf[11]? = some h.headerChecksum ∧
      readRange s.ibuf 12 h.contentSize.toNat = .ok f.content ∧
      be32 s.ibuf (12 + h.contentSize.toNat) = .ok h.crc ∧
      s.ibuf[16 + h.contentSize.toNat]? = some h.stopByte

/-- R176: `DEC.S` succeeds exactly on the packets that pass all of the conditions, which do not mention `totalDataLen`
(decision D12). -/
def Obligations.SecureDecodeAcceptanceSet : Prop :=
  ∀ s : State,
    (∃ f, answers .decS s (.frame f)) ↔
      17 ≤ s.ibuf.length ∧ checksumPasses s.ibuf ∧ 17 + declaredSize s.ibuf ≤ s.ibuf.length ∧
      crcPasses s.ibuf ∧ markersPass s.ibuf

/-- R195, R196, R197, R198: each failure of `DEC.S` has exactly its cause, and `FrameTooShort` of `DEC.P` exactly its own;
`DEC.P` never reports `FramingError`. The order of the checks, which these rules take over, is decision D11. -/
def Obligations.DecodeFailuresHaveExactlyTheirCauses : Prop :=
  ∀ s : State,
    (failsWith .decS s .frameTooShort ↔
      s.ibuf.length < 17 ∨ checksumPasses s.ibuf ∧ s.ibuf.length < 17 + declaredSize s.ibuf) ∧
    (failsWith .decP s .frameTooShort ↔ s.ibuf.length < 5) ∧
    (failsWith .decS s .framingError ↔
      17 ≤ s.ibuf.length ∧ checksumPasses s.ibuf ∧ 17 + declaredSize s.ibuf ≤ s.ibuf.length ∧ crcPasses s.ibuf ∧
      ¬ markersPass s.ibuf) ∧
    ¬ failsWith .decP s .framingError ∧
    (failsWith .decS s .checksumMismatch ↔ 17 ≤ s.ibuf.length ∧ ¬ checksumPasses s.ibuf) ∧
    (failsWith .decS s .crcMismatch ↔
      17 ≤ s.ibuf.length ∧ checksumPasses s.ibuf ∧ 17 + declaredSize s.ibuf ≤ s.ibuf.length ∧ ¬ crcPasses s.ibuf)

/-- R180 with R181 (the upper limit is decision D14): `DEC.P` delivers the packet number, the info section and the content
of every packet of 5 to 65540 bytes, and fails below and above. -/
def Obligations.PlainDecodeDeliversEveryWellSizedPacket : Prop :=
  ∀ s : State,
    (s.ibuf.length < 5 → failsWith .decP s .frameTooShort) ∧
    (65540 < s.ibuf.length → failsWith .decP s .contentTooLarge) ∧
    (5 ≤ s.ibuf.length → s.ibuf.length ≤ 65540 →
      ∃ f : Frame, answers .decP s (.frame f) ∧ f.secureHeader = none ∧ be32 s.ibuf 0 = .ok f.packetNumber ∧
        s.ibuf[4]?.map infoDec = some f.infoSection ∧ f.content = s.ibuf.drop 5)

/-! ### Round trips and corruption -/

/-- R147, secure half: decoding the packet of a successful secure encode succeeds and gives every operand back. -/
def Obligations.SecureRoundTrip : Prop :=
  ∀ (hdp wfa ros : Bool) (info dev : Byte) (pn : Option Word) (s t : State) (p : Memory),
    exec (.encS hdp wfa ros info dev pn) s = .next t → t.rsp = some (.packet p) →
    ∃ (ck : Byte) (c : Word), p[11]? = some ck ∧ be32 p (12 + s.ibuf.length) = .ok c ∧
      ∀ u : State, u.ibuf = p →
        answers .decS u (.frame {
          packetNumber := pn.getD s.seq
          infoSection := ⟨hdp, wfa, ros, info.setWidth 5⟩
          content := s.ibuf
          secureHeader := some ⟨0xFF#8, BitVec.ofNat 16 (17 + s.ibuf.length), dev, BitVec.ofNat 16 s.ibuf.length,
            ck, c, 0xFE#8⟩ })

/-- R147, plain half. -/
def Obligations.PlainRoundTrip : Prop :=
  ∀ (hdp wfa ros : Bool) (info : Byte) (pn : Option Word) (s t : State) (p : Memory),
    exec (.encP hdp wfa ros info pn) s = .next t → t.rsp = some (.packet p) →
    ∀ u : State, u.ibuf = p →
      answers .decP u (.frame {
        packetNumber := pn.getD s.seq
        infoSection := ⟨hdp, wfa, ros, info.setWidth 5⟩
        content := s.ibuf
        secureHeader := none })

/-- R175 (the order of the checks is decision D11): one changed byte of an encoded secure packet is always rejected, with
`ChecksumMismatch` at offsets 0 to 11, `CrcMismatch` in the content and the CRC field, `FramingError` at the stop byte. -/
def Obligations.EverySingleByteCorruptionIsRejected : Prop :=
  ∀ (hdp wfa ros : Bool) (info dev : Byte) (pn : Option Word) (s t u : State) (p : Memory) (j : Nat) (b : Byte),
    exec (.encS hdp wfa ros info dev pn) s = .next t → t.rsp = some (.packet p) →
    j < p.length → p[j]? ≠ some b → u.ibuf = p.set j b →
    failsWith .decS u (if j ≤ 11 then .checksumMismatch else if j ≤ 15 + s.ibuf.length then .crcMismatch
      else .framingError)

/-- R182, plain half: re-encoding the frame of a plain packet, with its packet number explicit, gives the packet back. -/
def Obligations.PlainReencodeRestoresThePacket : Prop :=
  ∀ (s t u : State) (f : Frame), exec .decP s = .next t → t.rsp = some (.frame f) → u.ibuf = f.content →
    answers (.encP f.infoSection.highDataPriority f.infoSection.waitForAnswer f.infoSection.readOrSend
      (f.infoSection.info.setWidth 8) (some f.packetNumber)) u (.packet s.ibuf)

/-- R182, secure half: re-encoding an accepted secure packet's frame gives the packet back exactly when the packet has no
bytes after its stop byte and its `totalDataLen` is its length in 16 bits (decisions D7, D12, D13). -/
def Obligations.SecureReencodeRestoresExactlyTheExactPackets : Prop :=
  ∀ (s t u : State) (f : Frame) (h : SecureHeader),
    exec .decS s = .next t → t.rsp = some (.frame f) → f.secureHeader = some h → u.ibuf = f.content →
    (answers (.encS f.infoSection.highDataPriority f.infoSection.waitForAnswer f.infoSection.readOrSend
        (f.infoSection.info.setWidth 8) h.deviceID (some f.packetNumber)) u (.packet s.ibuf) ↔
      s.ibuf.length = 17 + h.contentSize.toNat ∧ h.totalDataLen = BitVec.ofNat 16 s.ibuf.length)

/-- R229, R180: a secure packet given to `DEC.P` is accepted and misread, its first four bytes taken as the packet number
and its fifth as the info byte (while it has at most 65540 bytes: decision D14). -/
def Obligations.PlainDecodeMisreadsSecurePackets : Prop :=
  ∀ (hdp wfa ros : Bool) (info dev : Byte) (pn : Option Word) (s t u : State) (p : Memory),
    exec (.encS hdp wfa ros info dev pn) s = .next t → t.rsp = some (.packet p) → p.length ≤ 65540 → u.ibuf = p →
    answers .decP u (.frame {
      packetNumber := 0xFF#8 ++ BitVec.ofNat 16 (17 + s.ibuf.length) ++ dev
      infoSection := infoDec (BitVec.ofNat 8 ((pn.getD s.seq).toNat / 2 ^ 24))
      content := p.drop 5
      secureHeader := none })
end

