-- ==== Sys2Proof/Laws/State.lean ====
section
/-! SUPPORT. State.lean: each update of the state, field by field. -/

namespace Sys2Proof.Machine

variable (s : State) (r : Response) (f : Failure) (q : Request) (rest : List Input) (pn : Option Word)

@[simp] theorem respond_seq : (respond r s).seq = s.seq := rfl
@[simp] theorem respond_ibuf : (respond r s).ibuf = s.ibuf := rfl
@[simp] theorem respond_inputs : (respond r s).inputs = s.inputs := rfl
@[simp] theorem respond_rsp : (respond r s).rsp = some r := rfl

@[simp] theorem takeFailure_seq : (takeFailure f s).seq = s.seq := rfl
@[simp] theorem takeFailure_ibuf : (takeFailure f s).ibuf = s.ibuf := rfl
@[simp] theorem takeFailure_inputs : (takeFailure f s).inputs = s.inputs := rfl
@[simp] theorem takeFailure_rsp : (takeFailure f s).rsp = some (.failure f) := rfl

@[simp] theorem writeSeq_seq (v : Nat) : (writeSeq v s).seq = BitVec.ofNat 32 v := rfl
@[simp] theorem writeSeq_ibuf (v : Nat) : (writeSeq v s).ibuf = s.ibuf := rfl
@[simp] theorem writeSeq_inputs (v : Nat) : (writeSeq v s).inputs = s.inputs := rfl
@[simp] theorem writeSeq_rsp (v : Nat) : (writeSeq v s).rsp = s.rsp := rfl

@[simp] theorem accept_seq : (accept q rest s).seq = s.seq := rfl
@[simp] theorem accept_ibuf : (accept q rest s).ibuf = q.ibuf := rfl
@[simp] theorem accept_inputs : (accept q rest s).inputs = rest := rfl
@[simp] theorem accept_rsp : (accept q rest s).rsp = s.rsp := rfl

@[simp] theorem applyReset_seq : (applyReset rest s).seq = 0 := rfl
@[simp] theorem applyReset_ibuf : (applyReset rest s).ibuf = s.ibuf := rfl
@[simp] theorem applyReset_inputs : (applyReset rest s).inputs = rest := rfl
@[simp] theorem applyReset_rsp : (applyReset rest s).rsp = none := rfl

@[simp] theorem packetNumber_some (v : Word) : packetNumber (some v) s = v := rfl
@[simp] theorem packetNumber_none : packetNumber none s = s.seq := rfl

@[simp] theorem advanceSeq_some (v : Word) : advanceSeq (some v) s = s := rfl

/-- Adding one in 32 bits is `trunc_32(SEQ + 1)`. -/
@[simp] theorem advanceSeq_none_seq : (advanceSeq none s).seq = s.seq + 1 := by
  apply BitVec.eq_of_toNat_eq
  simp [advanceSeq]

@[simp] theorem advanceSeq_ibuf : (advanceSeq pn s).ibuf = s.ibuf := by cases pn <;> rfl
@[simp] theorem advanceSeq_inputs : (advanceSeq pn s).inputs = s.inputs := by cases pn <;> rfl
@[simp] theorem advanceSeq_rsp : (advanceSeq pn s).rsp = s.rsp := by cases pn <;> rfl

end Sys2Proof.Machine
end

