-- ==== Sys2Proof/Laws/Ops.lean ====
section
/-! SUPPORT. Ops.lean: everything the ends of an operation can do, one lemma each. -/

namespace Sys2Proof.Machine

/-- An operation that does not touch `SEQ` ends in a response or a failure, and changes only the response port. -/
theorem finish_next {r : Op Response} {s t : State} (h : finish r s = .next t) :
    (∃ resp, r = .ok resp ∧ t = respond resp s) ∨
    (∃ f, r = .error (.raise f) ∧ t = takeFailure f s) := by
  unfold finish at h
  split at h
  · exact .inl ⟨_, rfl, by simpa using h.symm⟩
  · exact .inr ⟨_, rfl, by simpa using h.symm⟩
  · cases h

/-- An encode delivers its packet and advances the counter, or fails and changes only the response port. -/
theorem finishEncode_next {pn : Option Word} {r : Op Memory} {s t : State}
    (h : finishEncode pn r s = .next t) :
    (∃ p, r = .ok p ∧ t = respond (.packet p) (advanceSeq pn s)) ∨
    (∃ f, r = .error (.raise f) ∧ t = takeFailure f s) := by
  unfold finishEncode at h
  split at h
  · exact .inl ⟨_, rfl, by simpa using h.symm⟩
  · exact .inr ⟨_, rfl, by simpa using h.symm⟩
  · cases h

@[simp] theorem finish_ok (resp : Response) (s : State) : finish (.ok resp) s = .next (respond resp s) := rfl
@[simp] theorem finish_raise (f : Failure) (s : State) : finish (raise f) s = .next (takeFailure f s) := rfl
@[simp] theorem finishEncode_ok (pn : Option Word) (p : Memory) (s : State) :
    finishEncode pn (.ok p) s = .next (respond (.packet p) (advanceSeq pn s)) := rfl
@[simp] theorem finishEncode_raise (pn : Option Word) (f : Failure) (s : State) :
    finishEncode pn (raise f) s = .next (takeFailure f s) := rfl

/-! ### Running pseudocode -/

@[simp] theorem op_ok_bind {α β : Type} (a : α) (k : α → Op β) : ((.ok a : Op α) >>= k) = k a := rfl
@[simp] theorem op_pure {α : Type} (a : α) : (pure a : Op α) = .ok a := rfl
@[simp] theorem op_raise_bind {α β : Type} (f : Failure) (k : α → Op β) : ((raise f : Op α) >>= k) = raise f := rfl
@[simp] theorem op_map_ok {α β : Type} (g : α → β) (a : α) : (g <$> (.ok a : Op α)) = .ok (g a) := rfl
@[simp] theorem op_map_raise {α β : Type} (g : α → β) (f : Failure) : (g <$> (raise f : Op α)) = raise f := rfl
@[simp] theorem raise_ne_ok {α : Type} (f : Failure) (a : α) : (raise f : Op α) ≠ .ok a := by simp [raise]
@[simp] theorem ok_ne_raise {α : Type} (f : Failure) (a : α) : (.ok a : Op α) ≠ raise f := by simp [raise]
@[simp] theorem raise_inj {α : Type} (f g : Failure) : (raise f : Op α) = raise g ↔ f = g := by simp [raise]

/-- A bind that answers has a first part that answers. -/
theorem op_bind_ok {α β : Type} {x : Op α} {k : α → Op β} {b : β} (h : (x >>= k) = .ok b) :
    ∃ a, x = .ok a ∧ k a = .ok b := by
  cases x with
  | ok a => exact ⟨a, rfl, h⟩
  | error e => cases h

end Sys2Proof.Machine
end

