-- ==== Sys2Proof/Laws/Memory.lean ====
section
/-! SUPPORT. Memory.lean: what each buffer operation answers, and that a buffer's cells are in canonical form. -/

namespace Sys2Proof.Machine

/-! ### Reading -/

@[simp] theorem readByte_of_lt {buf : Memory} {off : Nat} (h : off < buf.length) :
    readByte buf off = .ok buf[off] := by
  simp [readByte, h]

theorem readByte_ok_iff {buf : Memory} {off : Nat} {b : Byte} :
    readByte buf off = .ok b ↔ buf[off]? = some b := by
  unfold readByte
  split <;> simp_all

theorem readByte_past {buf : Memory} {off : Nat} (h : buf.length ≤ off) :
    readByte buf off = .error .readPastEnd := by
  have : buf[off]? = none := by simpa using h
  simp [readByte, this]

theorem readRange_of_le {buf : Memory} {off n : Nat} (h : off + n ≤ buf.length) :
    readRange buf off n = .ok ((buf.drop off).take n) := by
  simp [readRange, h]

@[simp] theorem readRange_zero_of_le {buf : Memory} {n : Nat} (h : n ≤ buf.length) :
    readRange buf 0 n = .ok (buf.take n) := by
  simp [readRange, h]

@[simp] theorem be16_of_le {buf : Memory} {off : Nat} (h : off + 2 ≤ buf.length) :
    be16 buf off = .ok (BitVec.ofNat 16 (buf[off].toNat * 256 + buf[off + 1].toNat)) := by
  have h0 : off < buf.length := by omega
  have h1 : off + 1 < buf.length := by omega
  simp [be16, memRead, h0, h1]

@[simp] theorem be32_of_le {buf : Memory} {off : Nat} (h : off + 4 ≤ buf.length) :
    be32 buf off = .ok (BitVec.ofNat 32
      (((buf[off].toNat * 256 + buf[off + 1].toNat) * 256 + buf[off + 2].toNat) * 256 + buf[off + 3].toNat)) := by
  have h0 : off < buf.length := by omega
  have h1 : off + 1 < buf.length := by omega
  have h2 : off + 2 < buf.length := by omega
  have h3 : off + 3 < buf.length := by omega
  simp [be32, memRead, h0, h1, h2, h3]

/-! ### Writing -/

@[simp] theorem beBytes_length (n v : Nat) : (beBytes n v).length = n := by
  induction n with
  | zero => rfl
  | succ n ih => simp [beBytes, ih]

theorem beBytes_two (v : Nat) : beBytes 2 v = [BitVec.ofNat 8 (v >>> 8), BitVec.ofNat 8 v] := by
  simp [beBytes]

theorem beBytes_four (v : Nat) :
    beBytes 4 v = [BitVec.ofNat 8 (v >>> 24), BitVec.ofNat 8 (v >>> 16), BitVec.ofNat 8 (v >>> 8), BitVec.ofNat 8 v] := by
  simp [beBytes]

/-! ### Canonical form -/

theorem cellsFrom_fst_ge {k : Nat} {m : Memory} {c : Host.Cell} (h : c ∈ cellsFrom k m) : k ≤ c.1 := by
  induction m generalizing k with
  | nil => cases h
  | cons b bs ih =>
    rcases List.mem_cons.1 h with rfl | h
    · exact Nat.le_refl _
    · exact Nat.le_of_succ_le (ih h)

theorem cellsFrom_rising (k : Nat) (m : Memory) : (cellsFrom k m).Pairwise (fun a b => a.1 < b.1) := by
  induction m generalizing k with
  | nil => exact .nil
  | cons b bs ih => exact .cons (fun c h => cellsFrom_fst_ge h) (ih (k + 1))

/-- The offsets of a buffer's cells are strictly rising. -/
theorem cells_rising (m : Memory) : (cells m).Pairwise (fun a b => a.1 < b.1) := cellsFrom_rising 0 m

theorem cellsFrom_injective (k : Nat) (m m' : Memory) (h : cellsFrom k m = cellsFrom k m') : m = m' := by
  induction m generalizing k m' with
  | nil => cases m' <;> simp_all [cellsFrom]
  | cons b bs ih =>
    cases m' with
    | nil => simp [cellsFrom] at h
    | cons b' bs' =>
      simp only [cellsFrom, List.cons.injEq, Prod.mk.injEq, true_and] at h
      rw [h.1, ih _ _ h.2]

/-- Equal cells are equal buffers: the form is canonical. -/
theorem cells_injective (m m' : Memory) (h : cells m = cells m') : m = m' := cellsFrom_injective 0 m m' h

/-! ### Every buffer operation keeps the 17-bit length -/

@[simp] theorem wf_nil : Memory.wf [] = true := by decide

theorem readRange_wf {buf m : Memory} {off n : Nat} (hw : Memory.wf buf = true) (h : readRange buf off n = .ok m) :
    Memory.wf m = true := by
  unfold readRange at h
  split at h
  · cases h
    simp only [Memory.wf, decide_eq_true_eq, List.length_take, List.length_drop] at *
    omega
  · cases h

theorem accept_wf {r : Request} {rest : List Input} {s : State} (h : r.wf = true) :
    Memory.wf (accept r rest s).ibuf = true := h

end Sys2Proof.Machine
end

