-- ==== Sys2Proof/Laws/Codec.lean ====
section
/-! SUPPORT. Codec.lean: what the checksum and CRC engines answer inside a buffer, their registers over joined byte
sequences, the packets the encoders build, and what the decoders answer, one lemma for each way they end. -/

namespace Sys2Proof.Machine

/-! ### The engines -/

@[simp] theorem checksum_of_le {buf : Memory} {n : Nat} (h : n ≤ buf.length) :
    checksum buf n = .ok (negateSum (sumBytes (buf.take n))) := by
  simp [checksum, h]

@[simp] theorem crc32_of_le {buf : Memory} {n : Nat} (h : n ≤ buf.length) :
    crc32 buf n = .ok (crcBytes Config.crcInit (buf.take n) ^^^ Config.crcXorOut) := by
  simp [crc32, h]

theorem sumBytes_append (xs ys : Memory) : sumBytes (xs ++ ys) = sumBytes xs + sumBytes ys := by
  induction xs with
  | nil => simp [sumBytes]
  | cons b bs ih => simp [sumBytes, ih, Nat.add_assoc]

theorem crcBytes_append (crc : Word) (xs ys : Memory) :
    crcBytes crc (xs ++ ys) = crcBytes (crcBytes crc xs) ys := by
  induction xs generalizing crc with
  | nil => rfl
  | cons b bs ih => simp [crcBytes, ih]

/-! ### The encoder -/

@[simp] theorem secureHeaderBytes_length (hdp wfa ros : Bool) (info dev : Byte) (pn : Word) (n : Nat) :
    (secureHeaderBytes hdp wfa ros info dev pn n).length = 11 := by
  simp [secureHeaderBytes]

/-- The secure packet piece by piece: header, checksum, content, CRC, stop byte. -/
theorem encodeSecure_of_le {content : Memory} (h : content.length ≤ 65535) (hdp wfa ros : Bool) (info dev : Byte)
    (pn : Word) :
    encodeSecure hdp wfa ros info dev pn content =
      let header := secureHeaderBytes hdp wfa ros info dev pn content.length
      let body := header ++ [negateSum (sumBytes header)] ++ content
      .ok (body ++ beBytes 4 (crcBytes Config.crcInit body ^^^ Config.crcXorOut).toNat ++ [Config.stopByte]) := by
  have hn : ¬ Config.maxContent < content.length := by simpa [Config.maxContent] using h
  have hl : Config.secureOverhead + content.length - Config.crcTail =
      (secureHeaderBytes hdp wfa ros info dev pn content.length ++
        [negateSum (sumBytes (secureHeaderBytes hdp wfa ros info dev pn content.length))] ++ content).length := by
    simp [Config.secureOverhead, Config.crcTail]
    omega
  have hh : Config.hdrCkLen = (secureHeaderBytes hdp wfa ros info dev pn content.length).length := by
    simp [Config.hdrCkLen]
  unfold encodeSecure
  dsimp only
  rw [if_neg hn, hh, checksum_of_le (Nat.le_refl _), List.take_length, op_ok_bind, hl, crc32_of_le (Nat.le_refl _),
    List.take_length]
  rfl

/-- Content that is too long is refused before anything else is done (R140). -/
theorem encodeSecure_of_gt {content : Memory} (h : 65535 < content.length) (hdp wfa ros : Bool) (info dev : Byte)
    (pn : Word) : encodeSecure hdp wfa ros info dev pn content = raise .contentTooLarge :=
  if_pos h

theorem encodePlain_of_le {content : Memory} (h : content.length ≤ 65535) (hdp wfa ros : Bool) (info : Byte)
    (pn : Word) :
    encodePlain hdp wfa ros info pn content = .ok (beBytes 4 pn.toNat ++ [infoEnc hdp wfa ros info] ++ content) :=
  if_neg (Nat.not_lt.2 h)

theorem encodePlain_of_gt {content : Memory} (h : 65535 < content.length) (hdp wfa ros : Bool) (info : Byte)
    (pn : Word) : encodePlain hdp wfa ros info pn content = raise .contentTooLarge :=
  if_pos h

/-! ### The decoders -/

theorem markersWrong_iff (startByte stopByte : Byte) :
    markersWrong startByte stopByte = true ↔ startByte ≠ 0xFF#8 ∨ stopByte ≠ 0xFE#8 := by
  simp [markersWrong]

theorem decodePlain_of_lt {p : Memory} (h : p.length < 5) : decodePlain p = raise .frameTooShort :=
  if_pos h

theorem decodePlain_of_gt {p : Memory} (h : 65540 < p.length) : decodePlain p = raise .contentTooLarge := by
  unfold decodePlain
  rw [if_neg (by simp only [Config.plainOverhead]; omega), if_pos (by simp only [Config.maxContent, Config.plainOverhead]; omega)]

theorem decodePlain_of_le {p : Memory} (h : 5 ≤ p.length) (h' : p.length ≤ 65540) :
    decodePlain p = .ok {
      packetNumber := BitVec.ofNat 32
        (((p[0].toNat * 256 + p[1].toNat) * 256 + p[2].toNat) * 256 + p[3].toNat)
      infoSection := infoDec p[4]
      content := p.drop 5
      secureHeader := none } := by
  unfold decodePlain
  rw [if_neg (by simp only [Config.plainOverhead]; omega),
    if_neg (by simp only [Config.maxContent, Config.plainOverhead]; omega), be32_of_le (by omega),
    readByte_of_lt (by omega), readRange_of_le (by simp only [Config.plainOverhead]; omega)]
  simp

theorem decodeSecure_of_lt {p : Memory} (h : p.length < 17) : decodeSecure p = raise .frameTooShort :=
  if_pos h

/-- Check 2, and then checks 3 to 5 with the `contentSize` it has covered. -/
theorem decodeSecure_of_le {p : Memory} (h : 17 ≤ p.length) :
    decodeSecure p =
      if negateSum (sumBytes (p.take 11)) ≠ p[11] then raise .checksumMismatch
      else decodeSecureBody p p[11] (BitVec.ofNat 16 (p[9].toNat * 256 + p[10].toNat)) := by
  unfold decodeSecure
  rw [if_neg (by simp only [Config.secureOverhead]; omega), checksum_of_le (by simp only [Config.hdrCkLen]; omega),
    readByte_of_lt (by omega), be16_of_le (by omega)]
  rfl

theorem decodeSecureBody_of_lt {p : Memory} {hck : Byte} {cs : Half} (h : p.length < 17 + cs.toNat) :
    decodeSecureBody p hck cs = raise .frameTooShort :=
  if_pos h

/-- Checks 4 and 5, and then the frame. -/
theorem decodeSecureBody_of_le {p : Memory} {hck : Byte} {cs : Half} (h : 17 + cs.toNat ≤ p.length) {stored : Word}
    (hs : be32 p (12 + cs.toNat) = .ok stored) :
    decodeSecureBody p hck cs =
      if crcBytes Config.crcInit (p.take (p.length - 5)) ^^^ Config.crcXorOut ≠ stored then raise .crcMismatch
      else if markersWrong p[0] p[16 + cs.toNat] then raise .framingError
      else secureFields p cs stored p[0] p[16 + cs.toNat] hck := by
  unfold decodeSecureBody
  rw [if_neg (by simp only [Config.secureOverhead]; omega), hs, crc32_of_le (by omega), readByte_of_lt (by omega),
    readByte_of_lt (by omega)]
  rfl

/-- The fields of an accepted packet. -/
theorem secureFields_of_le {p : Memory} {cs : Half} {crc : Word} {startByte stopByte hck : Byte}
    (h : 12 + cs.toNat ≤ p.length) :
    secureFields p cs crc startByte stopByte hck = .ok {
      packetNumber := BitVec.ofNat 32
        (((p[4].toNat * 256 + p[5].toNat) * 256 + p[6].toNat) * 256 + p[7].toNat)
      infoSection := infoDec p[8]
      content := (p.drop 12).take cs.toNat
      secureHeader := some {
        startByte := startByte
        totalDataLen := BitVec.ofNat 16 (p[1].toNat * 256 + p[2].toNat)
        deviceID := p[3]
        contentSize := cs
        headerChecksum := hck
        crc := crc
        stopByte := stopByte } } := by
  unfold secureFields
  rw [be16_of_le (by omega), readByte_of_lt (by omega), be32_of_le (by omega), readByte_of_lt (by omega),
    readRange_of_le h]
  rfl

end Sys2Proof.Machine
end

