-- ==== Sys2Proof/Laws/Decode.lean ====
section
/-! SUPPORT. Decode.lean: the fields of a packed command word, one lemma a field. -/

namespace Sys2Proof

variable (pn : Word) (b a : Byte) (ros wfa hdp val pnv sec : Bool) (op : Byte)

theorem opField_packCmd : opField (packCmd pn b a ros wfa hdp val pnv sec op) = op := by
  apply BitVec.eq_of_getLsbD_eq
  intro i hi
  simp only [opField, packCmd, placeField]
  interval_cases i <;> simp

theorem secField_packCmd : secField (packCmd pn b a ros wfa hdp val pnv sec op) = sec := by
  simp [secField, packCmd, placeField]

theorem pnvField_packCmd : pnvField (packCmd pn b a ros wfa hdp val pnv sec op) = pnv := by
  simp [pnvField, packCmd, placeField]

theorem valField_packCmd : valField (packCmd pn b a ros wfa hdp val pnv sec op) = val := by
  simp [valField, packCmd, placeField]

theorem hdpField_packCmd : hdpField (packCmd pn b a ros wfa hdp val pnv sec op) = hdp := by
  simp [hdpField, packCmd, placeField]

theorem wfaField_packCmd : wfaField (packCmd pn b a ros wfa hdp val pnv sec op) = wfa := by
  simp [wfaField, packCmd, placeField]

theorem rosField_packCmd : rosField (packCmd pn b a ros wfa hdp val pnv sec op) = ros := by
  simp [rosField, packCmd, placeField]

theorem rsvField_packCmd : rsvField (packCmd pn b a ros wfa hdp val pnv sec op) = 0#2 := by
  apply BitVec.eq_of_getLsbD_eq
  intro i hi
  simp only [rsvField, packCmd, placeField]
  interval_cases i <;> simp

theorem aField_packCmd : aField (packCmd pn b a ros wfa hdp val pnv sec op) = a := by
  apply BitVec.eq_of_getLsbD_eq
  intro i hi
  simp only [aField, packCmd, placeField]
  interval_cases i <;> simp

theorem bField_packCmd : bField (packCmd pn b a ros wfa hdp val pnv sec op) = b := by
  apply BitVec.eq_of_getLsbD_eq
  intro i hi
  simp only [bField, packCmd, placeField]
  interval_cases i <;> simp

theorem pnField_packCmd : pnField (packCmd pn b a ros wfa hdp val pnv sec op) = pn := by
  apply BitVec.eq_of_getLsbD_eq
  intro i hi
  simp only [pnField, packCmd, placeField]
  interval_cases i <;> simp

/-- What the masks of the six operations without a mode keep of a packed word. -/
theorem packCmd_and_opMask : packCmd pn b a ros wfa hdp val pnv sec op &&& 0x000000000000C0FF#64 = op.setWidth 64 := by
  apply BitVec.eq_of_getLsbD_eq
  intro i hi
  simp only [packCmd, placeField]
  interval_cases i <;> simp

/-- What the masks of the four framed operations keep of a packed word. -/
theorem packCmd_and_framedMask : packCmd pn b a ros wfa hdp val pnv sec op &&& 0x000000000000C1FF#64 =
    (BitVec.ofBool sec).setWidth 64 <<< 8 ||| op.setWidth 64 := by
  apply BitVec.eq_of_getLsbD_eq
  intro i hi
  simp only [packCmd, placeField]
  interval_cases i <;> simp

end Sys2Proof
end

