-- ==== Sys2Proof/Laws/Flags.lean ====
section
/-! SUPPORT. Flags.lean: what the bit functions answer at a legal and at an illegal index. -/

namespace Sys2Proof.Machine

theorem setBit_of_le {i : Byte} (h : i.toNat ≤ 7) (b : Byte) (v : Bool) :
    setBit b i v = .ok (if v then b ||| (1#8 <<< i.toNat) else b &&& ~~~(1#8 <<< i.toNat)) := by
  have : ¬ 7#8 < i := by simp only [BitVec.lt_def, BitVec.toNat_ofNat]; omega
  simp only [setBit, if_neg this]
  split <;> rfl

theorem setBit_of_gt {i : Byte} (h : 7 < i.toNat) (b : Byte) (v : Bool) : setBit b i v = raise .invalidArgument := by
  have : 7#8 < i := by simp only [BitVec.lt_def, BitVec.toNat_ofNat]; omega
  simp only [setBit, if_pos this]

theorem getBit_of_le {i : Byte} (h : i.toNat ≤ 7) (b : Byte) :
    getBit b i = .ok (decide ((b >>> i.toNat) &&& 1#8 = 1#8)) := by
  have : ¬ 7#8 < i := by simp only [BitVec.lt_def, BitVec.toNat_ofNat]; omega
  simp only [getBit, if_neg this]

theorem getBit_of_gt {i : Byte} (h : 7 < i.toNat) (b : Byte) : getBit b i = raise .invalidArgument := by
  have : 7#8 < i := by simp only [BitVec.lt_def, BitVec.toNat_ofNat]; omega
  simp only [getBit, if_pos this]

end Sys2Proof.Machine
end

