-- ==== Sys2Proof/Laws/PerInstr.lean ====
section
/-! SUPPORT. PerInstr.lean: the per-instruction family `RowOfEncoding`: the word the encoder writes for an operation is one
that the operation's own row of the table selects (`30_encoding.md` R82). -/

namespace Sys2Proof.Laws.RowOfEncoding

/-- The table has a row of this mnemonic, and the encoded word is in it. -/
def Statement (i : Instr) : Prop :=
  ∃ row ∈ opTable, row.mnemonic = i.mnemonic ∧ encode i &&& row.mask = row.pattern

theorem setbit (byte index : Byte) (value : Bool) : Statement (.setbit byte index value) :=
  ⟨opTable[0], by decide, rfl, packCmd_and_opMask ..⟩

theorem getbit (byte index : Byte) : Statement (.getbit byte index) :=
  ⟨opTable[1], by decide, rfl, packCmd_and_opMask ..⟩

theorem infoenc (hdp wfa ros : Bool) (info : Byte) : Statement (.infoenc hdp wfa ros info) :=
  ⟨opTable[2], by decide, rfl, packCmd_and_opMask ..⟩

theorem infodec (byte : Byte) : Statement (.infodec byte) :=
  ⟨opTable[3], by decide, rfl, packCmd_and_opMask ..⟩

theorem cksum : Statement .cksum :=
  ⟨opTable[4], by decide, rfl, packCmd_and_opMask ..⟩

theorem crc32 : Statement .crc32 :=
  ⟨opTable[5], by decide, rfl, packCmd_and_opMask ..⟩

theorem encS (hdp wfa ros : Bool) (info dev : Byte) (pn : Option Word) :
    Statement (.encS hdp wfa ros info dev pn) :=
  ⟨opTable[6], by decide, rfl, packCmd_and_framedMask ..⟩

theorem encP (hdp wfa ros : Bool) (info : Byte) (pn : Option Word) : Statement (.encP hdp wfa ros info pn) :=
  ⟨opTable[7], by decide, rfl, packCmd_and_framedMask ..⟩

theorem decS : Statement .decS :=
  ⟨opTable[8], by decide, rfl, packCmd_and_framedMask ..⟩

theorem decP : Statement .decP :=
  ⟨opTable[9], by decide, rfl, packCmd_and_framedMask ..⟩

end Sys2Proof.Laws.RowOfEncoding
end

