-- ==== Sys2Proof/Tests/Slice0.lean ====
section
/-! SUPPORT. Slice0.lean: the well-formedness smoke tests, the decoding of words written out from the spec's encoding, at
most two runs of each operation (expected results from `95_test_vectors.md` and the rules' own examples), and for each
statement with hypotheses a witness that meets them. -/

open Sys2Proof Sys2Proof.Machine Sys2Proof.Spec

namespace Sys2Proof.Tests

/-! ### Helpers -/

/-- A state with this counter and this `IBUF`. -/
def start (seq : Word) (ibuf : Memory) : State := ⟨seq, ibuf, none, []⟩

/-- A state in which the host presents these inputs. -/
def given (seq : Word) (inputs : List Input) : State := ⟨seq, [], none, inputs⟩

/-- A state with this counter, this `IBUF` and this response. -/
def answered (seq : Word) (ibuf : Memory) (r : Response) : State := ⟨seq, ibuf, some r, []⟩

/-- The next state, if there is one. -/
def after : Host.Outcome State Fault Refusal → Option State
  | .next t => some t
  | .fault _ => none
  | .refused _ => none

/-- The response and the counter of the next state. -/
def reply (o : Host.Outcome State Fault Refusal) : Option (Option Response × Word) :=
  (after o).map fun t => (t.rsp, t.seq)

theorem next_of_after {o : Host.Outcome State Fault Refusal} {t : State} (h : after o = some t) : o = .next t := by
  cases o with
  | next u => exact congrArg _ (Option.some.inj h)
  | fault f => cases h
  | refused r => cases h

/-- `n` zero bytes. -/
def zeros (n : Nat) : Memory := List.replicate n 0#8

@[simp] theorem zeros_length (n : Nat) : (zeros n).length = n := List.length_replicate

/-- An encode of content that is not too long delivers a packet. -/
theorem encS_next {s : State} (h : s.ibuf.length ≤ 65535) (hdp wfa ros : Bool) (info dev : Byte) (pn : Option Word) :
    ∃ p, exec (.encS hdp wfa ros info dev pn) s = .next (respond (.packet p) (advanceSeq pn s)) :=
  ⟨_, by simp only [exec, execEncS, encodeSecure_of_le h]; rfl⟩

theorem encP_next {s : State} (h : s.ibuf.length ≤ 65535) (hdp wfa ros : Bool) (info : Byte) (pn : Option Word) :
    ∃ p, exec (.encP hdp wfa ros info pn) s = .next (respond (.packet p) (advanceSeq pn s)) :=
  ⟨_, by simp only [exec, execEncP, encodePlain_of_le h]; rfl⟩

/-- The secure packet of the source's scenario (S3). -/
def s3 : Memory :=
  [0xFF, 0x00, 0x15, 0x0C, 0x00, 0x00, 0x00, 0x64, 0xA1, 0x00, 0x04, 0xD7,
   0x01, 0x02, 0x03, 0x04, 0xC9, 0x35, 0x6B, 0x4C, 0xFE]

/-- Its frame (V-DS-1). -/
def s3Frame : Frame where
  packetNumber := 100
  infoSection := ⟨true, false, true, 1⟩
  content := [1, 2, 3, 4]
  secureHeader := some ⟨0xFF, 21, 12, 4, 0xD7, 0xC9356B4C, 0xFE⟩

/-- The operation that builds it. -/
def s3Encode : Instr := .encS true false true 1 12 (some 100)

/-- The plain packet of the same fields (V-EP-1, V-DP-3). -/
def p3 : Memory := [0x00, 0x00, 0x00, 0x64, 0xA1, 0x01, 0x02, 0x03, 0x04]

def p3Frame : Frame where
  packetNumber := 100
  infoSection := ⟨true, false, true, 1⟩
  content := [1, 2, 3, 4]
  secureHeader := none

/-! ### Well-formedness -/

theorem test_request_wf : Request.wf ⟨0x05#64, [1, 2]⟩ = true := by decide
theorem test_longest_buffer_wf : Memory.wf (zeros 131071) = true := by simp [Memory.wf, Config.lenBits]
theorem test_overlong_buffer_not_wf : Memory.wf (zeros 131072) = false := by simp [Memory.wf, Config.lenBits]
theorem test_overlong_request_not_wf : Request.wf ⟨0x05#64, zeros 131072⟩ = false := by simp [Request.wf, Memory.wf, Config.lenBits]
theorem test_overlong_input_not_wf : Input.wf (.request ⟨0x05#64, zeros 131072⟩) = false := by
  simp [Input.wf, Request.wf, Memory.wf, Config.lenBits]
theorem test_reset_input_wf : Input.wf .reset = true := rfl

/-! ### Decoding words written out from R80 and R82 -/

/-- PN, B = 05, A = 00, RSV ROS WFA HDP = 0000 0, VAL = 1, PNV SEC = 00, OP = 01 (30_encoding.md section 9). -/
theorem test_decode_setbit :
    decode (0x00000000#32 ++ 0x05#8 ++ 0x00#8 ++ 0b00#2 ++ 0b000#3 ++ 0b1#1 ++ 0b00#2 ++ 0x01#8) =
      .ok (.setbit 0x00 5 true) := by decide
/-- V-SB-12: junk in fields `SETBIT` does not use. -/
theorem test_decode_setbit_junk : decode 0x1234567805000D01#64 = .ok (.setbit 0x00 5 true) := by decide
theorem test_decode_getbit : decode 0x0000000007A10002#64 = .ok (.getbit 0xA1 7) := by decide
theorem test_decode_infoenc : decode 0x0000000000012803#64 = .ok (.infoenc true false true 1) := by decide
/-- V-IE-9: each flag alone. -/
theorem test_decode_infoenc_wfa : decode 0x00000000000A1003#64 = .ok (.infoenc false true false 0x0A) := by decide
theorem test_decode_infodec : decode 0x0000000000A10004#64 = .ok (.infodec 0xA1) := by decide
theorem test_decode_cksum : decode 0x0000000000000005#64 = .ok .cksum := by decide
theorem test_decode_crc32 : decode 0x0000000000000006#64 = .ok .crc32 := by decide
/-- PN = 100, B = 12, A = 1, RSV = 00, ROS WFA HDP = 101, VAL = 0, PNV = 1, SEC = 1, OP = 07. -/
theorem test_decode_encS :
    decode (0x00000064#32 ++ 0x0C#8 ++ 0x01#8 ++ 0b00#2 ++ 0b101#3 ++ 0b0#1 ++ 0b1#1 ++ 0b1#1 ++ 0x07#8) =
      .ok (.encS true false true 1 12 (some 100)) := by decide
/-- V-ES-9. -/
theorem test_decode_encS_auto : decode 0x0000000000000107#64 = .ok (.encS false false false 0 0 none) := by decide
theorem test_decode_encP : decode 0x0000000000012807#64 = .ok (.encP true false true 1 none) := by decide
/-- V-EP-1: the device is ignored. -/
theorem test_decode_encP_dev : decode 0x000000640C012A07#64 = .ok (.encP true false true 1 (some 100)) := by decide
theorem test_decode_decS : decode 0x0000000000000108#64 = .ok .decS := by decide
/-- V-DS-19: operand fields of `DEC` are ignored. -/
theorem test_decode_decS_junk : decode 0xFFFFFFFFFFFF3F08#64 = .ok .decS := by decide
theorem test_decode_decP : decode 0x0000000000000008#64 = .ok .decP := by decide
/-- V-IL-1 to V-IL-8. -/
theorem test_decode_illegal :
    decode 0x0000000000000000#64 = .error (.unknownOp 0x00) ∧ decode 0x0000000000000009#64 = .error (.unknownOp 0x09) ∧
    decode 0x00000000000000FF#64 = .error (.unknownOp 0xFF) ∧ decode 0x0000000000004001#64 = .error (.reservedBits 1) ∧
    decode 0x0000000000008007#64 = .error (.reservedBits 2) ∧ decode 0x000000000000C108#64 = .error (.reservedBits 3) ∧
    decode 0x0000000000010000#64 = .error (.unknownOp 0x00) ∧ decode 0x0000000008004001#64 = .error (.reservedBits 1) := by
  decide
theorem test_decodeTableWord : decodeTableWord 64 0x0000000007A10002 = some (.getbit 0xA1 7) := by decide
/-- V-EP-1 and V-EP-8: `dev` is bound to `B`, and both words select the same operation. -/
theorem test_text_form_encP :
    (TextForm.encP true false true 1 12 (some 100)).word = 0x000000640C012A07#64 ∧
    (TextForm.encP true false true 1 0 (some 100)).word = 0x0000006400012A07#64 ∧
    decode 0x000000640C012A07#64 = decode 0x0000006400012A07#64 := by decide
/-- R85's worked words, one a mnemonic, written as text forms and pseudo-forms. -/
theorem test_text_form_words :
    (TextForm.setbit 0x00 5 true).word = 0x0000000005000401#64 ∧ (TextForm.getbit 0xA1 7).word = 0x0000000007A10002#64 ∧
    (TextForm.infoenc true false true 1).word = 0x0000000000012803#64 ∧
    (TextForm.infodec 0xA1).word = 0x0000000000A10004#64 ∧ TextForm.cksum.word = 0x0000000000000005#64 ∧
    TextForm.crc32.word = 0x0000000000000006#64 ∧
    (TextForm.enc true true false true 1 12 (some 100)).word = 0x000000640C012B07#64 ∧
    (TextForm.enc false true false true 1 0 none).word = 0x0000000000012807#64 ∧
    (TextForm.dec true).word = 0x0000000000000108#64 ∧ (TextForm.dec false).word = 0x0000000000000008#64 := by decide

/-! ### One operation -/

/-- V-SB-5. -/
theorem test_setbit : reply (exec (.setbit 0x01 5 true) (start 9 [])) = some (some (.setbit 0x21), 9) := by decide
/-- V-SB-10: the least illegal index. -/
theorem test_setbit_index : reply (exec (.setbit 0x00 8 true) (start 9 [])) =
    some (some (.failure .invalidArgument), 9) := by decide
/-- V-GB-4, V-GB-5. -/
theorem test_getbit : reply (exec (.getbit 0xA1 6) (start 9 [])) = some (some (.getbit false), 9) ∧
    reply (exec (.getbit 0xA1 7) (start 9 [])) = some (some (.getbit true), 9) := by decide
/-- V-GB-10. -/
theorem test_getbit_index : reply (exec (.getbit 0xA1 8) (start 9 [])) =
    some (some (.failure .invalidArgument), 9) := by decide
/-- V-IE-9. -/
theorem test_infoenc : reply (exec (.infoenc false true false 0x0A) (start 9 [])) = some (some (.infoenc 0x4A), 9) := by
  decide
/-- V-IE-10: the info operand is masked. -/
theorem test_infoenc_mask : reply (exec (.infoenc true true false 0x3F) (start 9 [])) = some (some (.infoenc 0x7F), 9) := by
  decide
/-- V-ID-4. -/
theorem test_infodec : reply (exec (.infodec 0xA1) (start 9 [])) = some (some (.infodec ⟨true, false, true, 1⟩), 9) := by
  decide
/-- V-ID-9. -/
theorem test_infodec_wfa : reply (exec (.infodec 0x4A) (start 9 [])) =
    some (some (.infodec ⟨false, true, false, 10⟩), 9) := by decide
/-- V-CK-10: the S3 header. -/
theorem test_cksum : reply (exec .cksum (start 9 (s3.take 11))) = some (some (.cksum 0xD7), 9) := by decide
/-- V-CK-5 and V-CK-1. -/
theorem test_cksum_wraps : reply (exec .cksum (start 9 [0xFF, 0x01])) = some (some (.cksum 0x00), 9) ∧
    reply (exec .cksum (start 9 [])) = some (some (.cksum 0x00), 9) := by decide
/-- S2: the source's conformance vector. -/
theorem test_crc32 : reply (exec .crc32 (start 9 [0x31, 0x32, 0x33, 0x34, 0x35, 0x36, 0x37, 0x38, 0x39])) =
    some (some (.crc32 0xCBF43926), 9) := by decide +kernel
/-- V-CR-3 and S1. -/
theorem test_crc32_zero : reply (exec .crc32 (start 9 [0x00])) = some (some (.crc32 0xD202EF8D), 9) ∧
    reply (exec .crc32 (start 9 [])) = some (some (.crc32 0), 9) := by decide +kernel
/-- V-ES-1, the scenario S3. -/
theorem test_encS : reply (exec s3Encode (start 9 [1, 2, 3, 4])) = some (some (.packet s3), 9) := by decide +kernel
/-- V-ES-12: the counter's wrap. -/
theorem test_encS_wrap : reply (exec (.encS false false false 0 0 none) (start 0xFFFFFFFF [])) = some (some (.packet
    [0xFF, 0x00, 0x11, 0x00, 0xFF, 0xFF, 0xFF, 0xFF, 0x00, 0x00, 0x00, 0xF4, 0xA5, 0xAD, 0x4B, 0x4F, 0xFE]), 0) := by
  decide +kernel
/-- V-EP-1. -/
theorem test_encP : reply (exec (.encP true false true 1 (some 100)) (start 9 [1, 2, 3, 4])) =
    some (some (.packet p3), 9) := by decide
/-- V-EP-4: the counter is used and advanced. -/
theorem test_encP_auto : reply (exec (.encP false true false 0x0A none) (start 2 [0x48, 0x69])) =
    some (some (.packet [0x00, 0x00, 0x00, 0x02, 0x4A, 0x48, 0x69]), 3) := by decide
/-- V-DS-1. -/
theorem test_decS : reply (exec .decS (start 9 s3)) = some (some (.frame s3Frame), 9) := by decide +kernel
/-- V-DS-12: an accepted packet with a byte after its stop byte. -/
theorem test_decS_trailing : reply (exec .decS (start 9
    [0xFF, 0x00, 0x12, 0x00, 0x00, 0x00, 0x00, 0x00, 0x00, 0x00, 0x00, 0xEF, 0x28, 0x53, 0xF0, 0xF7, 0xFE, 0x00])) =
    some (some (.frame ⟨0, ⟨false, false, false, 0⟩, [], some ⟨0xFF, 18, 0, 0, 0xEF, 0x2853F0F7, 0xFE⟩⟩), 9) := by
  decide +kernel
/-- V-DP-3. -/
theorem test_decP : reply (exec .decP (start 9 p3)) = some (some (.frame p3Frame), 9) := by decide
/-- V-DP-1, at the greatest length that is too short. -/
theorem test_decP_short : reply (exec .decP (start 9 [0, 0, 0, 0])) = some (some (.failure .frameTooShort), 9) := by decide

/-! ### One step -/

/-- V-IL-8: an illegal word precedes an invalid argument. -/
theorem test_step_illegal : reply (step (given 9 [.request ⟨0x0000000008004001#64, [1]⟩])) =
    some (some (.failure .illegalCommand), 9) := by decide
/-- V-RS-1. -/
theorem test_step_reset : reply (step (given 0x2A [.reset])) = some (none, 0) := by decide
/-- P3 step 4, as the first operation after reset. -/
theorem test_step_fetched_word : reply (step (State.reset.withFetchWord 64 0x0000000006A10401)) =
    some (some (.setbit 0xE1), 0) := by decide

/-! ### Witnesses: for each statement with hypotheses, a state and operands that meet them all -/

/-- Both forms of the word: an automatic encode with junk in `PN`, and another operation with junk. -/
theorem witness_EncodeOfDecodeKeepsExactlyTheUsedBits :
    decode 0xDEADBEEF2A0A1107#64 = .ok (.encS false true false 0x0A 0x2A none) ∧
    decode 0x1234567805000D01#64 = .ok (.setbit 0x00 5 true) := by decide

theorem witness_RowSelectsItsOperation :
    opTable[0] ∈ opTable ∧ 0x1234567805000D01#64 &&& (opTable[0]).mask = (opTable[0]).pattern := by decide

theorem witness_RowsAreDisjointAndCoverTheLegalWords :
    opTable[8] ∈ opTable ∧ 0xFFFFFFFFFFFF3F08#64 &&& (opTable[8]).mask = (opTable[8]).pattern := by decide

/-- The three clauses: words that differ only in unused bits, automatic encodes that differ only in `PN`, and the greatest
operation code that ignores the buffer. -/
theorem witness_UnusedFieldsAreIgnored :
    (opTable[0] ∈ opTable ∧ 0x0000000005000401#64 &&& (opTable[0]).mask = (opTable[0]).pattern ∧
      0x0000000005000401#64 &&& (opTable[0]).used = 0x1234567805000D01#64 &&& (opTable[0]).used) ∧
    (0x0000000000000107#64).getLsbD 9 = false ∧ (0x0000000000000107#64).extractLsb' 0 8 = 0x07#8 ∧
      (0x0000000000000107#64).extractLsb' 0 32 = (0xFFFFFFFF00000107#64).extractLsb' 0 32 ∧
    ((0x0000000000A10004#64).extractLsb' 14 2 = 0#2 ∧ ((0x0000000000A10004#64).extractLsb' 0 8).toNat = 4 ∧
      Memory.wf [] = true ∧ Memory.wf [1, 2] = true) := by decide

theorem witness_StepPerformsTheDecodedOperation :
    (given 9 [.request ⟨0x5#64, s3⟩]).inputs = .request ⟨0x5#64, s3⟩ :: [] ∧ Request.wf ⟨0x5#64, s3⟩ = true ∧
      decode 0x5#64 = .ok .cksum := by decide

/-- Each of the three causes, at its boundary. -/
theorem witness_IllegalWordIsAnsweredWithIllegalCommand :
    (given 9 [.request ⟨0x4001#64, []⟩]).inputs = .request ⟨0x4001#64, []⟩ :: [] ∧ Request.wf ⟨0x4001#64, []⟩ = true ∧
    (0x4001#64).extractLsb' 14 2 ≠ 0#2 ∧ ((0x10000#64).extractLsb' 0 8).toNat = 0 ∧
    9 ≤ ((0x0009#64).extractLsb' 0 8).toNat := by decide

theorem witness_ResetInputClearsOnlyTheCounter : (given 9 [.reset, .reset]).inputs = .reset :: [.reset] := rfl

theorem witness_StepIdlesOrRefusesOverlongRequests :
    (start 9 []).inputs = [] ∧
    (given 9 [.request ⟨0x5#64, zeros 131072⟩]).inputs = .request ⟨0x5#64, zeros 131072⟩ :: [] ∧
    2 ^ 17 ≤ (zeros 131072).length := ⟨rfl, rfl, by simp⟩

theorem witness_ResetStateIsCounterZero :
    Request.wf ⟨0x5#64, [1]⟩ = true ∧ decode (Request.cmd ⟨0x5#64, [1]⟩) = .ok .cksum := by decide

/-- With a request that draws a number and one that does not. -/
theorem witness_EveryRequestIsAnswered :
    (given 9 [.request ⟨0x107#64, [1]⟩]).inputs = .request ⟨0x107#64, [1]⟩ :: [] ∧ Request.wf ⟨0x107#64, [1]⟩ = true ∧
    drawsNumber ⟨0x107#64, [1]⟩ = true ∧ drawsNumber ⟨0x307#64, [1]⟩ = false := by decide

/-- A response with an `OBUF`, and the shortest content that is too long. -/
theorem witness_OperationsStayInsideTheirBuffers :
    portOBUF (.packet s3) = some s3 ∧ 65535 < (start 0 (zeros 65536)).ibuf.length :=
  ⟨rfl, by simp [start]⟩

/-- A state with a sound frame in its response port, and a step from it. -/
theorem witness_EveryStepKeepsTheInvariant :
    Inv { given 9 [.request ⟨0x8#64, p3⟩] with ibuf := p3, rsp := some (.frame p3Frame) } ∧
    step { given 9 [.request ⟨0x8#64, p3⟩] with ibuf := p3, rsp := some (.frame p3Frame) } =
      .next (answered 9 p3 (.frame p3Frame)) := by
  refine ⟨⟨by decide, ?_⟩, next_of_after (by decide)⟩
  rintro r ⟨⟩
  exact ⟨by decide, rfl⟩

/-- Equal counters, and different counters with a request that draws no number. -/
theorem witness_AnswerDependsOnRequestAndCounterOnly :
    (given 9 [.request ⟨0x107#64, []⟩]).inputs = .request ⟨0x107#64, []⟩ :: [] ∧ Request.wf ⟨0x107#64, []⟩ = true ∧
    (given 9 [.request ⟨0x107#64, []⟩]).seq = (answered 9 s3 (.cksum 3)).seq ∧
    (given 5 []).seq ≠ (given 9 []).seq ∧ drawsNumber ⟨0x307#64, []⟩ = false := by decide

theorem witness_FailureIsNotSticky :
    Request.wf ⟨0x108#64, [1]⟩ = true ∧ Request.wf ⟨0x107#64, []⟩ = true ∧
    step (given 9 [.request ⟨0x108#64, [1]⟩, .request ⟨0x107#64, []⟩]) =
      .next { given 9 [.request ⟨0x107#64, []⟩] with ibuf := [1], rsp := some (.failure .frameTooShort) } :=
  ⟨by decide, by decide, next_of_after (by decide)⟩

theorem witness_OperationsThatDrawNoNumberCommute :
    Request.wf ⟨0x5#64, [1]⟩ = true ∧ Request.wf ⟨0x307#64, [2]⟩ = true ∧ drawsNumber ⟨0x5#64, [1]⟩ = false ∧
    drawsNumber ⟨0x307#64, [2]⟩ = false := by decide

theorem witness_CounterCountsAutomaticEncodes :
    let rs : List Request := [⟨0x107#64, [1]⟩, ⟨0x9#64, []⟩, ⟨0x7#64, []⟩]
    (given 0xFFFFFFFF (rs.map .request)).inputs = rs.map .request ∧ (∀ r ∈ rs, r.wf = true) ∧
      rs.countP drawsNumber = 2 := by decide

theorem witness_NonEncodeOperationsChangeOnlyTheResponse :
    Instr.cksum.mnemonic ≠ "ENC.S" ∧ Instr.cksum.mnemonic ≠ "ENC.P" ∧
    exec .cksum (start 9 [1]) = .next (answered 9 [1] (.cksum 0xFF)) :=
  ⟨by decide, by decide, next_of_after (by decide)⟩

/-- Both modes, with an omitted and with an explicit packet number. -/
theorem witness_EncodesChangeOnlyTheResponseAndTheCounter :
    exec s3Encode (start 9 [1, 2, 3, 4]) = .next (answered 9 [1, 2, 3, 4] (.packet s3)) ∧
    exec (.encP false false false 0 none) (start 0xFFFFFFFF []) =
      .next (answered 0 [] (.packet [0xFF, 0xFF, 0xFF, 0xFF, 0x00])) :=
  ⟨next_of_after (by decide +kernel), next_of_after (by decide)⟩

theorem witness_FailureHasNoSideEffect :
    exec .decS (start 9 [1]) = .next (answered 9 [1] (.failure .frameTooShort)) := next_of_after (by decide)

theorem witness_OperationsRaiseOnlyTheirFailures :
    exec (.getbit 0xA1 8) (start 9 []) = .next (answered 9 [] (.failure .invalidArgument)) := next_of_after (by decide)

/-- A failure and a success. -/
theorem witness_ResponseDrivesThePortsOfItsOperation :
    exec .decS (start 9 [1]) = .next (answered 9 [1] (.failure .frameTooShort)) ∧
    responseStatus (.failure .frameTooShort) ≠ .ok ∧
    exec .decP (start 9 p3) = .next (answered 9 p3 (.frame p3Frame)) ∧ responseStatus (.frame p3Frame) = .ok :=
  ⟨next_of_after (by decide), by decide, next_of_after (by decide), by decide⟩

theorem witness_StatusCodesAreDistinct : ∀ f, Response.packet s3 ≠ .failure f := by simp

/-- At the last bytes of a buffer. -/
theorem witness_BufferFieldsAreBigEndian :
    s3[20]? = some 0xFE#8 ∧ s3[19 + 1]? = some 0xFE#8 ∧ s3[17]? = some 0x35#8 ∧ s3[17 + 1]? = some 0x6B#8 ∧
    s3[17 + 2]? = some 0x4C#8 ∧ s3[17 + 3]? = some 0xFE#8 ∧ 3 < 4 := by decide

theorem witness_ReadSucceedsExactlyInsideTheBuffer : 0 < 4 ∧ 17 + 4 ≤ s3.length ∧ ¬ 18 + 4 ≤ s3.length := by decide

theorem witness_SetbitChangesExactlyTheIndexedBit : (7#8).toNat ≤ 7 ∧ 7 < (8#8).toNat := by decide

theorem witness_GetbitReturnsTheIndexedBit : (7#8).toNat ≤ 7 ∧ 7 < (8#8).toNat := by decide

theorem witness_BitOperationsRoundTrip : (7#8).toNat ≤ 7 ∧ (6#8).toNat ≤ 7 ∧ 6#8 ≠ 7#8 := by decide

theorem witness_InfoByteLayoutIsCanonical : 0 < 5 ∧ 4 < 5 := by decide

/-- All of a buffer, and none of an empty one. -/
theorem witness_ChecksumIsSelfConsistent : 21 ≤ s3.length ∧ 0 ≤ ([] : Memory).length := by decide

theorem witness_CrcByteFormEqualsBitForm : 21 ≤ s3.length ∧ 0 ≤ ([] : Memory).length := by decide

/-- A change of the last byte, in a window that reaches past the end. -/
theorem witness_CrcDetectsEveryChangeWithin32Bits :
    [1#8, 2#8].length = [1#8, 3#8].length ∧ [1#8, 2#8] ≠ [1#8, 3#8] ∧
    ∀ j, j < 8 ∨ 8 + 32 ≤ j → (crcBits [1#8, 2#8])[j]? = (crcBits [1#8, 3#8])[j]? := by
  refine ⟨rfl, by decide, fun j h => ?_⟩
  rcases h with h | h
  · interval_cases j <;> decide
  · rw [List.getElem?_eq_none, List.getElem?_eq_none]
    · exact Nat.le_trans (by decide) h
    · exact Nat.le_trans (by decide) h

theorem witness_SecureEncodeWritesTheSecureLayout :
    (start 9 (zeros 65535)).ibuf.length ≤ 65535 ∧ (start 9 []).ibuf.length ≤ 65535 := by simp [start]

theorem witness_PlainEncodeWritesThePlainLayout :
    (start 9 (zeros 65535)).ibuf.length ≤ 65535 ∧ (start 9 []).ibuf.length ≤ 65535 := by simp [start]

theorem witness_EncodeRefusesContentOver65535 :
    65535 < (start 9 (zeros 65536)).ibuf.length ∧ (start 9 (zeros 65535)).ibuf.length ≤ 65535 := by simp [start]

/-- Both clauses, at the longest content. -/
theorem witness_EncodeOutputLengths :
    (∃ t p, t.rsp = some (.packet p) ∧ exec (.encS true false true 1 12 none) (start 9 (zeros 65535)) = .next t) ∧
    (∃ t p, t.rsp = some (.packet p) ∧ exec (.encP true false true 1 none) (start 9 (zeros 65535)) = .next t) := by
  obtain ⟨p, hp⟩ := encS_next (s := start 9 (zeros 65535)) (by simp [start]) true false true 1 12 none
  obtain ⟨q, hq⟩ := encP_next (s := start 9 (zeros 65535)) (by simp [start]) true false true 1 none
  exact ⟨⟨_, p, rfl, hp⟩, ⟨_, q, rfl, hq⟩⟩

/-- On both sides of the limit. -/
theorem witness_TotalDataLenIsExactWhereItFits :
    (∃ t p, exec (.encS true false true 1 12 none) (start 9 (zeros 65518)) = .next t ∧ t.rsp = some (.packet p) ∧
      (start 9 (zeros 65518)).ibuf.length ≤ 65518) ∧
    (∃ t p, exec (.encS true false true 1 12 none) (start 9 (zeros 65519)) = .next t ∧ t.rsp = some (.packet p) ∧
      65518 < (start 9 (zeros 65519)).ibuf.length) := by
  obtain ⟨p, hp⟩ := encS_next (s := start 9 (zeros 65518)) (by simp [start]) true false true 1 12 none
  obtain ⟨q, hq⟩ := encS_next (s := start 9 (zeros 65519)) (by simp [start]) true false true 1 12 none
  exact ⟨⟨_, p, hp, rfl, by simp [start]⟩, ⟨_, q, hq, rfl, by simp [start]⟩⟩

theorem witness_ModesShareOneCounter :
    (start 0xFFFFFFFF (zeros 65535)).ibuf.length ≤ 65535 ∧ ([] : Memory).length ≤ 65535 := by simp [start]

/-- The checksum of the S3 packet's header. -/
theorem s3_checksum : checksumPasses s3 := ⟨0xD7, by decide, by decide⟩

/-- The CRC of the S3 packet. -/
theorem s3_crc : crcPasses s3 := ⟨0xC9356B4C, by decide +kernel, by decide⟩

theorem witness_SecureDecodeDeliversTheReceivedFields :
    17 ≤ s3.length ∧ checksumPasses s3 ∧ 17 + declaredSize s3 ≤ s3.length ∧ crcPasses s3 ∧ markersPass s3 :=
  ⟨by decide, s3_checksum, by decide, s3_crc, by decide, by decide⟩

theorem witness_SecureFrameFieldsAreTheReceivedValues :
    exec .decS (start 9 s3) = .next (answered 9 s3 (.frame s3Frame)) := next_of_after (by decide +kernel)

theorem witness_SecureDecodeAcceptanceSet : answers .decS (start 9 s3) (.frame s3Frame) :=
  next_of_after (by decide +kernel)

/-- Each failure of the two decoders happens (V-DS-6, V-DS-11, V-DP-1, V-DS-9, V-DS-5, V-DS-8). -/
theorem witness_DecodeFailuresHaveExactlyTheirCauses :
    failsWith .decS (start 9 (s3.take 16)) .frameTooShort ∧
    failsWith .decS (start 9 ((s3.set 10 5).set 11 0xD6)) .frameTooShort ∧
    failsWith .decP (start 9 [0, 0, 0, 0]) .frameTooShort ∧
    failsWith .decS (start 9 ((((((s3.set 0 0x7F).set 11 0x57).set 16 0x24).set 17 0x2E).set 18 0x36).set 19 0x2A))
      .framingError ∧
    failsWith .decS (start 9 (s3.set 0 0xFE)) .checksumMismatch ∧
    failsWith .decS (start 9 ((s3.set 0 0x7F).set 11 0x57)) .crcMismatch :=
  ⟨next_of_after (by decide), next_of_after (by decide), next_of_after (by decide),
    next_of_after (by decide +kernel), next_of_after (by decide), next_of_after (by decide +kernel)⟩

/-- Just below, at and just above the limits. -/
theorem witness_PlainDecodeDeliversEveryWellSizedPacket :
    (start 9 (zeros 4)).ibuf.length < 5 ∧ 65540 < (start 9 (zeros 65541)).ibuf.length ∧
    5 ≤ (start 9 (zeros 5)).ibuf.length ∧ 5 ≤ (start 9 (zeros 65540)).ibuf.length ∧
    (start 9 (zeros 65540)).ibuf.length ≤ 65540 := by simp [start]

theorem witness_SecureRoundTrip :
    exec s3Encode (start 9 [1, 2, 3, 4]) = .next (answered 9 [1, 2, 3, 4] (.packet s3)) ∧ (start 9 s3).ibuf = s3 :=
  ⟨next_of_after (by decide +kernel), rfl⟩

theorem witness_PlainRoundTrip :
    exec (.encP true false true 1 (some 100)) (start 9 [1, 2, 3, 4]) =
      .next (answered 9 [1, 2, 3, 4] (.packet p3)) ∧ (start 9 p3).ibuf = p3 :=
  ⟨next_of_after (by decide), rfl⟩

/-- Offsets on both sides of each limit: 11, 12, 19 and 20. -/
theorem witness_EverySingleByteCorruptionIsRejected :
    exec s3Encode (start 9 [1, 2, 3, 4]) = .next (answered 9 [1, 2, 3, 4] (.packet s3)) ∧
    ∀ j ∈ [11, 12, 19, 20], j < s3.length ∧ s3[j]? ≠ some 0x00#8 ∧ (start 0 (s3.set j 0x00)).ibuf = s3.set j 0x00 :=
  ⟨next_of_after (by decide +kernel), by decide⟩

theorem witness_PlainReencodeRestoresThePacket :
    exec .decP (start 9 p3) = .next (answered 9 p3 (.frame p3Frame)) ∧ (start 5 [1, 2, 3, 4]).ibuf = p3Frame.content :=
  ⟨next_of_after (by decide), rfl⟩

theorem witness_SecureReencodeRestoresExactlyTheExactPackets :
    exec .decS (start 9 s3) = .next (answered 9 s3 (.frame s3Frame)) ∧
    s3Frame.secureHeader = some ⟨0xFF, 21, 12, 4, 0xD7, 0xC9356B4C, 0xFE⟩ ∧
    (start 5 [1, 2, 3, 4]).ibuf = s3Frame.content :=
  ⟨next_of_after (by decide +kernel), rfl, rfl⟩

theorem witness_PlainDecodeMisreadsSecurePackets :
    exec s3Encode (start 9 [1, 2, 3, 4]) = .next (answered 9 [1, 2, 3, 4] (.packet s3)) ∧ s3.length ≤ 65540 ∧
    (start 5 s3).ibuf = s3 :=
  ⟨next_of_after (by decide +kernel), by decide, rfl⟩

end Sys2Proof.Tests
end

section
/-! Big-endian fields of a buffer (R11): what a read answers byte by byte, and which byte a written field has at each
offset. -/

namespace Sys2Proof.Machine

/-! ### Reading a field -/

@[simp] theorem memRead_zero (buf : Memory) (off : Nat) : memRead buf off 0 = .ok 0 := rfl

/-- The step of a big-endian read: one more byte moves the number read so far up by eight bits. -/
theorem memRead_succ_of_memRead {buf : Memory} {off n v : Nat} {b : Byte} (hv : memRead buf off n = .ok v)
    (hb : buf[off + n]? = some b) : memRead buf off (n + 1) = .ok (v * 256 + b.toNat) := by
  have hread : readByte buf (off + n) = .ok b := readByte_ok_iff.mpr hb
  simp only [memRead, hv, hread]
  rfl

theorem memRead_one_of_getElem? {buf : Memory} {off : Nat} {b0 : Byte} (h0 : buf[off]? = some b0) :
    memRead buf off 1 = .ok b0.toNat := by
  simpa using memRead_succ_of_memRead (memRead_zero buf off) h0

theorem memRead_two_of_getElem? {buf : Memory} {off : Nat} {b0 b1 : Byte} (h0 : buf[off]? = some b0)
    (h1 : buf[off + 1]? = some b1) : memRead buf off 2 = .ok (b0.toNat * 256 + b1.toNat) :=
  memRead_succ_of_memRead (memRead_one_of_getElem? h0) h1

/-- Four bytes: the nested sums of the byte-by-byte read, written out as powers of two. -/
theorem memRead_four_of_getElem? {buf : Memory} {off : Nat} {b0 b1 b2 b3 : Byte} (h0 : buf[off]? = some b0)
    (h1 : buf[off + 1]? = some b1) (h2 : buf[off + 2]? = some b2) (h3 : buf[off + 3]? = some b3) :
    memRead buf off 4 = .ok (b0.toNat * 2 ^ 24 + b1.toNat * 2 ^ 16 + b2.toNat * 2 ^ 8 + b3.toNat) := by
  have nested : memRead buf off 4 = .ok (((b0.toNat * 256 + b1.toNat) * 256 + b2.toNat) * 256 + b3.toNat) :=
    memRead_succ_of_memRead (memRead_succ_of_memRead (memRead_two_of_getElem? h0 h1) h2) h3
  rw [nested, Except.ok.injEq]
  omega

theorem be16_of_memRead {buf : Memory} {off v : Nat} (h : memRead buf off 2 = .ok v) :
    be16 buf off = .ok (BitVec.ofNat 16 v) := by
  simp only [be16, h]
  rfl

theorem be32_of_memRead {buf : Memory} {off v : Nat} (h : memRead buf off 4 = .ok v) :
    be32 buf off = .ok (BitVec.ofNat 32 v) := by
  simp only [be32, h]
  rfl

/-! ### Writing a field -/

theorem beBytes_getElem? {n k : Nat} (v : Nat) (h : k < n) :
    (beBytes n v)[k]? = some (BitVec.ofNat 8 (v >>> (8 * (n - 1 - k)))) := by
  induction n generalizing k with
  | zero => omega
  | succ n ih =>
    cases k with
    | zero => rfl
    | succ k =>
      have hshift : n + 1 - 1 - (k + 1) = n - 1 - k := by omega
      rw [beBytes, List.getElem?_cons_succ, ih (by omega), hshift]

/-- A field's byte `k`, seen in the buffer that the field stands in. -/
theorem getElem?_append_beBytes (before after : Memory) {n k : Nat} (v : Nat) (h : k < n) :
    (before ++ beBytes n v ++ after)[before.length + k]? =
      some (BitVec.ofNat 8 (v >>> (8 * (n - 1 - k)))) := by
  rw [List.append_assoc, List.getElem?_append_right (Nat.le_add_right _ _), Nat.add_sub_cancel_left,
    List.getElem?_append_left (by simpa using h), beBytes_getElem? v h]

/-- Settles O26: reads by adding one byte at a time, writes by induction on the width of the field. -/
theorem bufferFieldsAreBigEndian : Obligations.BufferFieldsAreBigEndian := by
  unfold Obligations.BufferFieldsAreBigEndian
  refine ⟨?one, ?two, ?four, ?write⟩
  case one =>
    intro buf off b0 h0
    exact memRead_one_of_getElem? h0
  case two =>
    intro buf off b0 b1 h0 h1
    have hread := memRead_two_of_getElem? h0 h1
    exact ⟨hread, be16_of_memRead hread⟩
  case four =>
    intro buf off b0 b1 b2 b3 h0 h1 h2 h3
    have hread := memRead_four_of_getElem? h0 h1 h2 h3
    exact ⟨hread, be32_of_memRead hread⟩
  case write =>
    intro before after n v k h
    exact getElem?_append_beBytes before after v h

end Sys2Proof.Machine
end

section
/-! The step on a request (`10_state.md` R30, R31): the operation it performs is the one its command word selects. -/

namespace Sys2Proof.Machine

theorem perform_of_decode {cmd : Cmd} {i : Instr} (h : decode cmd = .ok i) (s : State) :
    perform cmd s = exec i s := by
  simp only [perform, h]

theorem step_of_request {s : State} {r : Request} {rest : List Input} (hs : s.inputs = .request r :: rest)
    (hwf : r.wf = true) : step s = perform r.cmd (accept r rest s) := by
  simp only [step, hs, hwf, if_true]

/-- A well-formed request whose word decodes runs that operation, at the state in which the request is accepted. -/
theorem step_of_request_of_decode {s : State} {r : Request} {rest : List Input} {i : Instr}
    (hs : s.inputs = .request r :: rest) (hwf : r.wf = true) (hi : decode r.cmd = .ok i) :
    step s = exec i (accept r rest s) :=
  (step_of_request hs hwf).trans (perform_of_decode hi _)

/-- Settles O11: the reset state's fields by definition, its first step as any state's step on a request. -/
theorem resetStateIsCounterZero : Obligations.ResetStateIsCounterZero := by
  unfold Obligations.ResetStateIsCounterZero
  refine ⟨rfl, rfl, ?firstStep⟩
  case firstStep =>
    intro r rest i hwf hi
    exact step_of_request_of_decode rfl hwf hi

end Sys2Proof.Machine
end

section
/-! Staying inside the buffers (`20_memory.md` R44): no operation reads past its buffer, and every response is sound for
the bytes it answers, which bounds `OBUF`. -/

namespace Sys2Proof.Machine

/-! ### Pseudocode that never reads past a buffer's end -/

/-- The pseudocode gives a result with the property `P` or raises a failure; it does not read past a buffer's end. -/
def StaysInside {α : Type} (P : α → Prop) : Op α → Prop
  | .ok a => P a
  | .error (.raise _) => True
  | .error .readPastEnd => False

@[simp] theorem staysInside_ok {α : Type} {P : α → Prop} {a : α} : StaysInside P (.ok a) ↔ P a := Iff.rfl

@[simp] theorem staysInside_raise {α : Type} {P : α → Prop} (f : Failure) : StaysInside P (raise f) := trivial

theorem StaysInside.map {α β : Type} {P : α → Prop} {Q : β → Prop} {r : Op α} (h : StaysInside P r)
    (g : α → β) (hg : ∀ a, P a → Q (g a)) : StaysInside Q (g <$> r) := by
  cases r with
  | ok a => exact hg a h
  | error e =>
    cases e with
    | raise f => trivial
    | readPastEnd => exact h.elim

/-! ### The bit functions -/

theorem setBit_staysInside (b i : Byte) (v : Bool) : StaysInside (fun _ => True) (setBit b i v) := by
  rcases Nat.lt_or_ge 7 i.toNat with h | h
  · simp [setBit_of_gt h]
  · simp [setBit_of_le h]

theorem getBit_staysInside (b i : Byte) : StaysInside (fun _ => True) (getBit b i) := by
  rcases Nat.lt_or_ge 7 i.toNat with h | h
  · simp [getBit_of_gt h]
  · simp [getBit_of_le h]

/-! ### The encoders -/

theorem encodeSecure_length {content : Memory} (h : content.length ≤ 65535) (hdp wfa ros : Bool) (info dev : Byte)
    (pn : Word) :
    ∃ p, encodeSecure hdp wfa ros info dev pn content = .ok p ∧ p.length = 17 + content.length := by
  refine ⟨_, encodeSecure_of_le h hdp wfa ros info dev pn, ?_⟩
  simp only [List.length_append, secureHeaderBytes_length, beBytes_length, List.length_cons, List.length_nil]
  omega

theorem encodePlain_length {content : Memory} (h : content.length ≤ 65535) (hdp wfa ros : Bool) (info : Byte)
    (pn : Word) :
    ∃ p, encodePlain hdp wfa ros info pn content = .ok p ∧ p.length = 5 + content.length := by
  refine ⟨_, encodePlain_of_le h hdp wfa ros info pn, ?_⟩
  simp only [List.length_append, beBytes_length, List.length_cons, List.length_nil]

theorem encodeSecure_staysInside (hdp wfa ros : Bool) (info dev : Byte) (pn : Word) (content : Memory) :
    StaysInside (packetSound content) (encodeSecure hdp wfa ros info dev pn content) := by
  rcases Nat.lt_or_ge 65535 content.length with h | h
  · simp [encodeSecure_of_gt h]
  · obtain ⟨p, hp, hlen⟩ := encodeSecure_length h hdp wfa ros info dev pn
    rw [hp]
    exact ⟨h, .inl hlen⟩

theorem encodePlain_staysInside (hdp wfa ros : Bool) (info : Byte) (pn : Word) (content : Memory) :
    StaysInside (packetSound content) (encodePlain hdp wfa ros info pn content) := by
  rcases Nat.lt_or_ge 65535 content.length with h | h
  · simp [encodePlain_of_gt h]
  · obtain ⟨p, hp, hlen⟩ := encodePlain_length h hdp wfa ros info pn
    rw [hp]
    exact ⟨h, .inr hlen⟩

/-! ### The decoders -/

theorem decodePlain_staysInside (p : Memory) : StaysInside (frameSound p) (decodePlain p) := by
  rcases Nat.lt_or_ge p.length 5 with hshort | hshort
  · simp [decodePlain_of_lt hshort]
  rcases Nat.lt_or_ge 65540 p.length with hlong | hlong
  · simp [decodePlain_of_gt hlong]
  · rw [decodePlain_of_le hshort hlong]
    simp only [staysInside_ok, frameSound, List.length_drop, Config.maxContent, Config.plainOverhead]
    omega

/-- Checks 3 to 5 of R161, after a header checksum that is right: the size check is what keeps every later read
inside. -/
theorem decodeSecureBody_staysInside {p : Memory} {hck : Byte} (hck_ok : checksum p 11 = .ok hck) (cs : Half) :
    StaysInside (frameSound p) (decodeSecureBody p hck cs) := by
  rcases Nat.lt_or_ge p.length (17 + cs.toNat) with hshort | hsize
  · simp [decodeSecureBody_of_lt hshort]
  rw [decodeSecureBody_of_le hsize (be32_of_le (by omega))]
  split
  case isTrue => exact staysInside_raise _
  case isFalse hcrc =>
    split
    case isTrue => exact staysInside_raise _
    case isFalse hmarkers =>
      have hcontent : ((p.drop 12).take cs.toNat).length = cs.toNat := by
        simp only [List.length_take, List.length_drop]
        omega
      have hcs : cs.toNat ≤ 65535 := by omega
      simp only [markersWrong_iff, not_or, not_not] at hmarkers hcrc
      obtain ⟨hstart, hstop⟩ := hmarkers
      rw [secureFields_of_le (by omega), staysInside_ok]
      refine ⟨hcontent.trans_le hcs, hstart, hstop, hcontent.symm, ?_, hck_ok, ?_⟩
      · rwa [hcontent]
      · rw [← hcrc]
        exact crc32_of_le (Nat.sub_le _ _)

theorem decodeSecure_staysInside (p : Memory) : StaysInside (frameSound p) (decodeSecure p) := by
  rcases Nat.lt_or_ge p.length 17 with hshort | hshort
  · simp [decodeSecure_of_lt hshort]
  rw [decodeSecure_of_le hshort]
  split
  case isTrue => exact staysInside_raise _
  case isFalse hck =>
    apply decodeSecureBody_staysInside
    rw [checksum_of_le (by omega), not_not.mp hck]

/-! ### Every operation answers -/

/-- The outcome is a next state whose response is sound for the bytes in this buffer. -/
def AnswersSoundly (ibuf : Memory) (o : Host.Outcome State Fault Refusal) : Prop :=
  ∃ t resp, o = .next t ∧ t.rsp = some resp ∧ responseSound ibuf resp

theorem finish_answersSoundly {r : Op Response} {ibuf : Memory} (h : StaysInside (responseSound ibuf) r) (s : State) :
    AnswersSoundly ibuf (finish r s) := by
  cases r with
  | ok resp => exact ⟨_, resp, rfl, rfl, h⟩
  | error e =>
    cases e with
    | raise f => exact ⟨_, .failure f, rfl, rfl, trivial⟩
    | readPastEnd => exact h.elim

theorem finishEncode_answersSoundly {r : Op Memory} {content : Memory} (h : StaysInside (packetSound content) r)
    (pn : Option Word) (s : State) : AnswersSoundly content (finishEncode pn r s) := by
  cases r with
  | ok p => exact ⟨_, .packet p, rfl, rfl, h⟩
  | error e =>
    cases e with
    | raise f => exact ⟨_, .failure f, rfl, rfl, trivial⟩
    | readPastEnd => exact h.elim

theorem exec_answersSoundly (i : Instr) (s : State) : AnswersSoundly s.ibuf (exec i s) := by
  cases i with
  | setbit byte index value =>
    exact finish_answersSoundly ((setBit_staysInside byte index value).map Response.setbit fun _ h => h) s
  | getbit byte index =>
    exact finish_answersSoundly ((getBit_staysInside byte index).map Response.getbit fun _ h => h) s
  | infoenc hdp wfa ros info =>
    exact finish_answersSoundly (r := .ok (.infoenc (infoEnc hdp wfa ros info))) trivial s
  | infodec byte => exact finish_answersSoundly (r := .ok (.infodec (infoDec byte))) trivial s
  | cksum =>
    have hread : checksum s.ibuf s.ilen = .ok _ := checksum_of_le (Nat.le_refl _)
    exact finish_answersSoundly (by rw [hread]; trivial) s
  | crc32 =>
    have hread : crc32 s.ibuf s.ilen = .ok _ := crc32_of_le (Nat.le_refl _)
    exact finish_answersSoundly (by rw [hread]; trivial) s
  | encS hdp wfa ros info dev pn =>
    exact finishEncode_answersSoundly (encodeSecure_staysInside hdp wfa ros info dev (packetNumber pn s) s.ibuf) pn s
  | encP hdp wfa ros info pn =>
    exact finishEncode_answersSoundly (encodePlain_staysInside hdp wfa ros info (packetNumber pn s) s.ibuf) pn s
  | decS =>
    exact finish_answersSoundly ((decodeSecure_staysInside s.ibuf).map Response.frame fun _ h => h) s
  | decP =>
    exact finish_answersSoundly ((decodePlain_staysInside s.ibuf).map Response.frame fun _ h => h) s

/-! ### The output buffer -/

/-- A sound response's `OBUF` is a packet with at most 17 bytes around its content, or the content itself. -/
theorem obuf_length_le_of_responseSound {ibuf m : Memory} {resp : Response} (h : responseSound ibuf resp)
    (hm : portOBUF resp = some m) : m.length ≤ 65552 := by
  cases resp with
  | packet p =>
    cases hm
    obtain ⟨hcontent, hlen⟩ := h
    simp only [Config.maxContent, Config.secureOverhead, Config.plainOverhead] at hcontent hlen
    omega
  | frame f =>
    cases hm
    obtain ⟨hcontent, -⟩ := h
    exact hcontent.trans (by decide)
  | _ => cases hm

/-- `OLEN` is the length of `OBUF` where 17 bits can express it. -/
theorem olen_of_obuf {resp : Response} {m : Memory} (hm : portOBUF resp = some m) (hlen : m.length < 2 ^ 17) :
    ∃ olen, portOLEN resp = some olen ∧ olen.toNat = m.length :=
  ⟨_, by rw [portOLEN, hm]; rfl, (BitVec.toNat_ofNat ..).trans (Nat.mod_eq_of_lt hlen)⟩

theorem encS_failsWith_contentTooLarge {s : State} (h : 65535 < s.ibuf.length) (hdp wfa ros : Bool) (info dev : Byte)
    (pn : Option Word) : Spec.failsWith (.encS hdp wfa ros info dev pn) s .contentTooLarge :=
  congrArg (finishEncode pn · s) (encodeSecure_of_gt h hdp wfa ros info dev (packetNumber pn s))

theorem encP_failsWith_contentTooLarge {s : State} (h : 65535 < s.ibuf.length) (hdp wfa ros : Bool) (info : Byte)
    (pn : Option Word) : Spec.failsWith (.encP hdp wfa ros info pn) s .contentTooLarge :=
  congrArg (finishEncode pn · s) (encodePlain_of_gt h hdp wfa ros info (packetNumber pn s))

/-- `ENC.S` of content that is not too long delivers a packet 17 bytes longer. -/
theorem encS_delivers_packet_length {s : State} (h : s.ibuf.length ≤ 65535) (hdp wfa ros : Bool) (info dev : Byte)
    (pn : Option Word) : ∃ t p, exec (.encS hdp wfa ros info dev pn) s = .next t ∧ t.rsp = some (.packet p) ∧
      p.length = 17 + s.ibuf.length := by
  obtain ⟨p, hp, hlen⟩ := encodeSecure_length h hdp wfa ros info dev (packetNumber pn s)
  exact ⟨_, p, congrArg (finishEncode pn · s) hp, rfl, hlen⟩

/-- Content of the greatest length an encode accepts. -/
def longestContent : Memory := List.replicate 65535 0#8

theorem longestContent_length : longestContent.length = 65535 := List.length_replicate

/-- Settles O13: every response is sound for the bytes it answers, whatever the operation and the state, and the bound
on `OBUF` follows; `ENC.S` reaches it with 65535 zero bytes. -/
theorem operationsStayInsideTheirBuffers : Obligations.OperationsStayInsideTheirBuffers := by
  unfold Obligations.OperationsStayInsideTheirBuffers
  refine ⟨?answers, ?refuses, ?reached⟩
  case answers =>
    intro i s
    obtain ⟨t, resp, hexec, hrsp, hsound⟩ := exec_answersSoundly i s
    refine ⟨t, resp, hexec, hrsp, fun m hm => ?_⟩
    have hbound := obuf_length_le_of_responseSound hsound hm
    exact ⟨hbound, olen_of_obuf hm (hbound.trans_lt (by decide))⟩
  case refuses =>
    intro hdp wfa ros info dev pn s h
    exact ⟨encS_failsWith_contentTooLarge h hdp wfa ros info dev pn,
      encP_failsWith_contentTooLarge h hdp wfa ros info pn⟩
  case reached =>
    obtain ⟨t, p, hexec, hrsp, hlen⟩ := encS_delivers_packet_length (s := { State.reset with ibuf := longestContent })
      longestContent_length.le false false false 0 0 (some 0)
    exact ⟨_, _, t, p, hexec, hrsp, by rw [hlen, longestContent_length]⟩

end Sys2Proof.Machine
end

section
/-! The layout of the info byte (`30_encoding.md` R62): which bits the encoder writes and the decoder reads. -/

namespace Sys2Proof.Machine

/-! ### Single bits -/

/-- A flag's byte holds the flag at bit 0 and nothing elsewhere. -/
theorem boolByte_getLsbD (v : Bool) (j : Nat) : (boolByte v).getLsbD j = (decide (j = 0) && v) := by
  cases v
  · simp [boolByte]
  · simp [boolByte, BitVec.getLsbD_one]

/-- A flag shifted to bit `n` stands there and nowhere else. -/
theorem boolByte_shiftLeft_getLsbD (v : Bool) {n : Nat} (hn : n < 8) (j : Nat) :
    (boolByte v <<< n).getLsbD j = (decide (j = n) && v) := by
  have hplace : (j < 8 ∧ ¬ j < n) ∧ j - n = 0 ↔ j = n := by omega
  rw [BitVec.getLsbD_shiftLeft, boolByte_getLsbD, ← Bool.and_assoc, ← decide_not, ← Bool.decide_and,
    ← Bool.decide_and, decide_eq_decide.mpr hplace]

/-- Shifting bit `n` down and masking with 1 tests the bit. -/
theorem decide_shiftRight_and_one (b : Byte) (n : Nat) : decide ((b >>> n) &&& 1#8 = 1#8) = b.getLsbD n := by
  rw [BitVec.and_one_eq_setWidth_ofBool_getLsbD, BitVec.getLsbD_ushiftRight, Nat.add_zero]
  cases b.getLsbD n
  · decide
  · decide

/-- `INFO_MASK` selects bits 0 to 4. -/
theorem infoMask_getLsbD (j : Nat) : Config.infoMask.getLsbD j = decide (j < 5) := by
  have hmask : Config.infoMask = BitVec.ofNat 8 (2 ^ 5 - 1) := rfl
  rw [hmask, BitVec.getLsbD_ofNat, Nat.testBit_two_pow_sub_one, ← Bool.decide_and, decide_eq_decide]
  omega

/-! ### The encoder's bits -/

section
variable (hdp wfa ros : Bool) (info : Byte)

/-- Bit `j` of the encoded byte, for every `j`: the info bits below 5, then each flag at its own place. -/
theorem infoEnc_getLsbD (j : Nat) : (infoEnc hdp wfa ros info).getLsbD j =
    (info.getLsbD j && decide (j < 5) || decide (j = 5) && hdp || decide (j = 6) && wfa || decide (j = 7) && ros) := by
  rw [infoEnc, BitVec.getLsbD_or, BitVec.getLsbD_or, BitVec.getLsbD_or, BitVec.getLsbD_and, infoMask_getLsbD,
    boolByte_shiftLeft_getLsbD hdp (by decide), boolByte_shiftLeft_getLsbD wfa (by decide),
    boolByte_shiftLeft_getLsbD ros (by decide)]

theorem infoEnc_getLsbD_of_lt {j : Nat} (h : j < 5) : (infoEnc hdp wfa ros info).getLsbD j = info.getLsbD j := by
  have hflags : j ≠ 5 ∧ j ≠ 6 ∧ j ≠ 7 := by omega
  simp [infoEnc_getLsbD, h, hflags]

theorem infoEnc_getLsbD_five : (infoEnc hdp wfa ros info).getLsbD 5 = hdp := by
  rw [infoEnc_getLsbD]
  simp

theorem infoEnc_getLsbD_six : (infoEnc hdp wfa ros info).getLsbD 6 = wfa := by
  rw [infoEnc_getLsbD]
  simp

theorem infoEnc_getLsbD_seven : (infoEnc hdp wfa ros info).getLsbD 7 = ros := by
  rw [infoEnc_getLsbD]
  simp

end

/-! ### The decoder's bits -/

theorem infoDec_info_getLsbD {j : Nat} (h : j < 5) (b : Byte) : (infoDec b).info.getLsbD j = b.getLsbD j := by
  rw [infoDec, BitVec.getLsbD_setWidth, BitVec.getLsbD_and, infoMask_getLsbD, decide_eq_true h, Bool.true_and,
    Bool.and_true]

theorem infoDec_highDataPriority (b : Byte) : (infoDec b).highDataPriority = b.getLsbD 5 :=
  decide_shiftRight_and_one b 5

theorem infoDec_waitForAnswer (b : Byte) : (infoDec b).waitForAnswer = b.getLsbD 6 :=
  decide_shiftRight_and_one b 6

theorem infoDec_readOrSend (b : Byte) : (infoDec b).readOrSend = b.getLsbD 7 :=
  decide_shiftRight_and_one b 7

/-! ### Decoding and encoding again -/

/-- Every byte is its own info section's encoding: compared bit by bit, the info bits together and each flag alone. -/
theorem infoEnc_infoDec (b : Byte) :
    infoEnc (infoDec b).highDataPriority (infoDec b).waitForAnswer (infoDec b).readOrSend
      ((infoDec b).info.setWidth 8) = b := by
  apply BitVec.eq_of_getLsbD_eq
  intro j hj
  obtain h | rfl | rfl | rfl : j < 5 ∨ j = 5 ∨ j = 6 ∨ j = 7 := by omega
  · rw [infoEnc_getLsbD_of_lt _ _ _ _ h, BitVec.getLsbD_setWidth, infoDec_info_getLsbD h, decide_eq_true hj,
      Bool.true_and]
  · rw [infoEnc_getLsbD_five, infoDec_highDataPriority]
  · rw [infoEnc_getLsbD_six, infoDec_waitForAnswer]
  · rw [infoEnc_getLsbD_seven, infoDec_readOrSend]

/-- Settles O34: each function bit by bit, and the re-encoding from the two. -/
theorem infoByteLayoutIsCanonical : Obligations.InfoByteLayoutIsCanonical := by
  unfold Obligations.InfoByteLayoutIsCanonical
  refine ⟨?encoded, ?decoded⟩
  case encoded =>
    intro hdp wfa ros info
    exact ⟨fun _ => infoEnc_getLsbD_of_lt hdp wfa ros info, infoEnc_getLsbD_five .., infoEnc_getLsbD_six ..,
      infoEnc_getLsbD_seven ..⟩
  case decoded =>
    intro b
    exact ⟨fun _ h => infoDec_info_getLsbD h b, infoDec_highDataPriority b, infoDec_waitForAnswer b,
      infoDec_readOrSend b, infoEnc_infoDec b⟩

end Sys2Proof.Machine
end

section
/-! The two forms of the CRC (`43_crc32.md` R130). The byte form puts a whole byte into the register and then shifts; the
bit-at-a-time form adds one bit before each shift. They agree because a shift is linear: the bits that have not reached
bit 0 yet can be kept beside the register, and added to it later. -/

namespace Sys2Proof.Machine

open Sys2Proof.Spec

/-- Masking with 1 tests bit 0. -/
theorem and_one_eq_one_iff (w : Word) : w &&& 1#32 = 1#32 ↔ w.getLsbD 0 = true := by
  rw [BitVec.and_one_eq_setWidth_ofBool_getLsbD]
  cases w.getLsbD 0
  · decide
  · decide

/-- One shift of a register that `d` was added to: only bit 0 of `d` takes part in this step, and the rest of `d` can be
added after it. -/
theorem crcShift_xor (crc d : Word) : crcShift (crc ^^^ d) = crcBit crc (d.getLsbD 0) ^^^ d >>> 1 := by
  have hshift : (crc ^^^ d) >>> 1 = crc >>> 1 ^^^ d >>> 1 := BitVec.ushiftRight_xor_distrib ..
  have hout : (crc ^^^ d) &&& 1#32 = 1#32 ↔ (crc.getLsbD 0 != d.getLsbD 0) = true := by
    rw [and_one_eq_one_iff, BitVec.getLsbD_xor]
  simp only [crcShift, crcBit, hout, hshift]
  split
  · ac_rfl
  · rfl

/-- The last shift instead of the first. -/
theorem crcShifts_succ_eq_crcShift (k : Nat) (crc : Word) :
    crcShifts (k + 1) crc = crcShift (crcShifts k crc) := by
  induction k generalizing crc with
  | zero => rfl
  | succ k ih => exact ih (crcShift crc)

/-- After `k` shifts the low `k` bits of `d` have been taken one at a time, and the others are still to come. -/
theorem crcShifts_xor (k : Nat) (crc d : Word) :
    crcShifts k (crc ^^^ d) = ((List.range k).map d.getLsbD).foldl crcBit crc ^^^ d >>> k := by
  induction k with
  | zero => simp [crcShifts]
  | succ k ih =>
    have hbit : (d >>> k).getLsbD 0 = d.getLsbD k := by rw [BitVec.getLsbD_ushiftRight, Nat.add_zero]
    rw [crcShifts_succ_eq_crcShift, ih, crcShift_xor, hbit, ← BitVec.shiftRight_add, List.range_succ,
      List.map_append, List.foldl_append]
    rfl

/-- A byte's turn is the turns of its eight bits: after eight shifts nothing of the byte is left. -/
theorem crcByte_eq_foldl_crcBit (crc : Word) (b : Byte) :
    crcByte crc b = ((List.range 8).map b.getLsbD).foldl crcBit crc := by
  have hrest : b.setWidth 32 >>> 8 = 0#32 := by bv_omega
  have hbits : (List.range 8).map (b.setWidth 32).getLsbD = (List.range 8).map b.getLsbD :=
    List.map_congr_left fun j hj => by
      have := List.mem_range.mp hj
      rw [BitVec.getLsbD_setWidth, decide_eq_true (by omega), Bool.true_and]
  rw [crcByte, crcShifts_xor, hrest, hbits, BitVec.xor_zero]

@[simp] theorem crcBits_cons (b : Byte) (bs : Memory) :
    crcBits (b :: bs) = (List.range 8).map b.getLsbD ++ crcBits bs := rfl

/-- The two forms agree from every value of the register. -/
theorem crcBytes_eq_foldl_crcBit (crc : Word) (bs : Memory) : crcBytes crc bs = (crcBits bs).foldl crcBit crc := by
  induction bs generalizing crc with
  | nil => rfl
  | cons b bs ih => rw [crcBytes, ih, crcByte_eq_foldl_crcBit, crcBits_cons, List.foldl_append]

theorem crcBytes_xorOut_eq_bitSerialCrc (bs : Memory) :
    crcBytes Config.crcInit bs ^^^ Config.crcXorOut = bitSerialCrc bs := by
  rw [crcBytes_eq_foldl_crcBit]
  rfl

/-- Settles O40: inside the buffer `crc32` runs the byte form on the first `n` bytes, and that is the bit form. -/
theorem crcByteFormEqualsBitForm : Obligations.CrcByteFormEqualsBitForm := by
  unfold Obligations.CrcByteFormEqualsBitForm
  intro buf n hn
  rw [crc32_of_le hn, crcBytes_xorOut_eq_bitSerialCrc]

end Sys2Proof.Machine
end

section
/-! What the encoder accepts and how long its packets are (`44_encoder.md` R140, R146). A delivered packet is the one the
pseudocode built, so its length is read off the pseudocode. -/

namespace Sys2Proof.Machine

/-! ### Content that is accepted -/

/-- `ENC.P` of content that is not too long delivers a packet 5 bytes longer. -/
theorem encP_delivers_packet_length {s : State} (h : s.ibuf.length ≤ 65535) (hdp wfa ros : Bool) (info : Byte)
    (pn : Option Word) : ∃ t p, exec (.encP hdp wfa ros info pn) s = .next t ∧ t.rsp = some (.packet p) ∧
      p.length = 5 + s.ibuf.length := by
  obtain ⟨p, hp, hlen⟩ := encodePlain_length h hdp wfa ros info (packetNumber pn s)
  exact ⟨_, p, congrArg (finishEncode pn · s) hp, rfl, hlen⟩

/-- Settles O44: each mode refuses content above 65535 bytes and delivers a packet for content up to there. -/
theorem encodeRefusesContentOver65535 : Obligations.EncodeRefusesContentOver65535 := by
  unfold Obligations.EncodeRefusesContentOver65535
  intro hdp wfa ros info dev pn s
  refine ⟨fun h => ⟨?refusesS, ?refusesP⟩, fun h => ⟨?deliversS, ?deliversP⟩⟩
  case refusesS => exact encS_failsWith_contentTooLarge h hdp wfa ros info dev pn
  case refusesP => exact encP_failsWith_contentTooLarge h hdp wfa ros info pn
  case deliversS =>
    obtain ⟨t, p, hexec, hrsp, -⟩ := encS_delivers_packet_length h hdp wfa ros info dev pn
    exact ⟨t, p, hexec, hrsp⟩
  case deliversP =>
    obtain ⟨t, p, hexec, hrsp, -⟩ := encP_delivers_packet_length h hdp wfa ros info pn
    exact ⟨t, p, hexec, hrsp⟩

/-! ### The length of a delivered packet -/

/-- A packet on the response port after an encode is the one the pseudocode built: a failure delivers none. -/
theorem eq_ok_of_finishEncode_packet {pn : Option Word} {r : Op Memory} {s t : State} {p : Memory}
    (hnext : finishEncode pn r s = .next t) (hrsp : t.rsp = some (.packet p)) : r = .ok p := by
  obtain ⟨q, hr, rfl⟩ | ⟨f, -, rfl⟩ := finishEncode_next hnext
  · cases hrsp
    exact hr
  · cases hrsp

theorem encodeSecure_ok_length {hdp wfa ros : Bool} {info dev : Byte} {pn : Word} {content p : Memory}
    (h : encodeSecure hdp wfa ros info dev pn content = .ok p) :
    content.length ≤ 65535 ∧ p.length = 17 + content.length := by
  rcases Nat.lt_or_ge 65535 content.length with hgt | hle
  · rw [encodeSecure_of_gt hgt] at h
    cases h
  · obtain ⟨q, hq, hlen⟩ := encodeSecure_length hle hdp wfa ros info dev pn
    cases hq.symm.trans h
    exact ⟨hle, hlen⟩

theorem encodePlain_ok_length {hdp wfa ros : Bool} {info : Byte} {pn : Word} {content p : Memory}
    (h : encodePlain hdp wfa ros info pn content = .ok p) :
    content.length ≤ 65535 ∧ p.length = 5 + content.length := by
  rcases Nat.lt_or_ge 65535 content.length with hgt | hle
  · rw [encodePlain_of_gt hgt] at h
    cases h
  · obtain ⟨q, hq, hlen⟩ := encodePlain_length hle hdp wfa ros info pn
    cases hq.symm.trans h
    exact ⟨hle, hlen⟩

/-- `OLEN` of a packet is its length: 17 bits hold the greatest content with the overhead of either mode. -/
theorem olen_of_packet_length {p : Memory} {k n : Nat} (hk : k ≤ 17) (hn : n ≤ 65535) (hlen : p.length = k + n) :
    ∃ olen, portOLEN (.packet p) = some olen ∧ olen.toNat = k + n ∧ p.length = k + n := by
  obtain ⟨olen, hport, hval⟩ := olen_of_obuf (resp := .packet p) rfl (by omega)
  exact ⟨olen, hport, hval.trans hlen, hlen⟩

/-- Settles O45: the delivered packet is the pseudocode's, whose length is known and fits `OLEN`. -/
theorem encodeOutputLengths : Obligations.EncodeOutputLengths := by
  unfold Obligations.EncodeOutputLengths
  intro hdp wfa ros info dev pn s t p hrsp
  refine ⟨fun hexec => ?secure, fun hexec => ?plain⟩
  case secure =>
    obtain ⟨hcontent, hlen⟩ := encodeSecure_ok_length (eq_ok_of_finishEncode_packet hexec hrsp)
    exact olen_of_packet_length (by decide) hcontent hlen
  case plain =>
    obtain ⟨hcontent, hlen⟩ := encodePlain_ok_length (eq_ok_of_finishEncode_packet hexec hrsp)
    exact olen_of_packet_length (by decide) hcontent hlen

end Sys2Proof.Machine
end

section
/-! What a frame of `DEC.S` holds (`45_decoder.md` R165). Each lemma runs one piece of the decoder's pseudocode backwards:
if it delivers a frame, then every read it makes has answered, and the frame holds what the reads answered. -/

namespace Sys2Proof.Machine

/-! ### The decoder backwards -/

/-- A frame on the response port is the one the pseudocode built: a failure delivers none. -/
theorem eq_ok_of_finish_frame {r : Op Frame} {s t : State} {f : Frame} (hnext : finish (.frame <$> r) s = .next t)
    (hrsp : t.rsp = some (.frame f)) : r = .ok f := by
  obtain ⟨resp, hr, rfl⟩ | ⟨_, -, rfl⟩ := finish_next hnext
  · cases hrsp
    cases r with
    | ok g =>
      cases hr
      rfl
    | error e => cases hr
  · cases hrsp

/-- Field extraction keeps the five values the checks have read and reads the other fields at their offsets. -/
theorem reads_of_secureFields_ok {p : Memory} {cs : Half} {crc : Word} {startByte stopByte hck : Byte} {f : Frame}
    (h : secureFields p cs crc startByte stopByte hck = .ok f) :
    ∃ totalDataLen deviceID,
      f.secureHeader = some ⟨startByte, totalDataLen, deviceID, cs, hck, crc, stopByte⟩ ∧
      be16 p 1 = .ok totalDataLen ∧ readByte p 3 = .ok deviceID ∧ be32 p 4 = .ok f.packetNumber ∧
      p[8]?.map infoDec = some f.infoSection ∧ readRange p 12 cs.toNat = .ok f.content := by
  unfold secureFields at h
  obtain ⟨totalDataLen, htotal, h⟩ := op_bind_ok h
  obtain ⟨deviceID, hdev, h⟩ := op_bind_ok h
  obtain ⟨pn, hpn, h⟩ := op_bind_ok h
  obtain ⟨ib, hib, h⟩ := op_bind_ok h
  obtain ⟨content, hcontent, h⟩ := op_bind_ok h
  cases h
  have hinfo : p[8]?.map infoDec = some (infoDec ib) := by rw [readByte_ok_iff.mp hib, Option.map_some]
  exact ⟨totalDataLen, deviceID, rfl, htotal, hdev, hpn, hinfo, hcontent⟩

/-- Checks 3 to 5 of R161, passed: the CRC and the markers of the frame are the ones read. -/
theorem reads_of_decodeSecureBody_ok {p : Memory} {hck : Byte} {cs : Half} {f : Frame}
    (h : decodeSecureBody p hck cs = .ok f) :
    ∃ crc startByte stopByte, be32 p (12 + cs.toNat) = .ok crc ∧ readByte p 0 = .ok startByte ∧
      readByte p (16 + cs.toNat) = .ok stopByte ∧ secureFields p cs crc startByte stopByte hck = .ok f := by
  unfold decodeSecureBody at h
  split at h
  case isTrue => cases h
  obtain ⟨crc, hcrc, h⟩ := op_bind_ok h
  obtain ⟨_, -, h⟩ := op_bind_ok h
  split at h
  case isTrue => cases h
  obtain ⟨startByte, hstart, h⟩ := op_bind_ok h
  obtain ⟨stopByte, hstop, h⟩ := op_bind_ok h
  split at h
  case isTrue => cases h
  exact ⟨crc, startByte, stopByte, hcrc, hstart, hstop, h⟩

/-- Checks 1 and 2 of R161, passed: the header checksum and `contentSize` are the ones read. -/
theorem reads_of_decodeSecure_ok {p : Memory} {f : Frame} (h : decodeSecure p = .ok f) :
    ∃ hck cs, readByte p 11 = .ok hck ∧ be16 p 9 = .ok cs ∧ decodeSecureBody p hck cs = .ok f := by
  unfold decodeSecure at h
  split at h
  case isTrue => cases h
  obtain ⟨_, -, h⟩ := op_bind_ok h
  obtain ⟨hck, hhck, h⟩ := op_bind_ok h
  split at h
  case isTrue => cases h
  obtain ⟨cs, hcs, h⟩ := op_bind_ok h
  exact ⟨hck, cs, hhck, hcs, h⟩

/-! ### The delivered frame -/

/-- Settles O49: a delivered frame is the pseudocode's, which took every field from a read at the field's offset. -/
theorem secureFrameFieldsAreTheReceivedValues : Obligations.SecureFrameFieldsAreTheReceivedValues := by
  unfold Obligations.SecureFrameFieldsAreTheReceivedValues
  intro s t f hexec hrsp
  obtain ⟨hck, cs, hhck, hcs, hbody⟩ := reads_of_decodeSecure_ok (eq_ok_of_finish_frame hexec hrsp)
  obtain ⟨crc, startByte, stopByte, hcrc, hstart, hstop, hfields⟩ := reads_of_decodeSecureBody_ok hbody
  obtain ⟨totalDataLen, deviceID, hheader, htotal, hdev, hpn, hinfo, hcontent⟩ := reads_of_secureFields_ok hfields
  exact ⟨_, hheader, readByte_ok_iff.mp hstart, htotal, readByte_ok_iff.mp hdev, hpn, hinfo, hcs,
    readByte_ok_iff.mp hhck, hcontent, hcrc, readByte_ok_iff.mp hstop⟩

end Sys2Proof.Machine
end

section
/-! The causes of the decoders' failures (`60_exceptions.md` R195 to R198). Each cause makes the decoder raise its
failure, and a packet for which no cause holds is accepted; so the failure raised tells the cause. -/

namespace Sys2Proof.Machine

open Sys2Proof.Spec

/-! ### The spec's conditions as comparisons of bytes and numbers -/

theorem declaredSize_eq_of_le {p : Memory} (h : 17 ≤ p.length) :
    declaredSize p = p[9].toNat * 256 + p[10].toNat := by
  have h9 : 9 < p.length := by omega
  have h10 : 10 < p.length := by omega
  simp only [declaredSize, List.getD_eq_getElem, h9, h10]

theorem checksumPasses_iff {p : Memory} (h : 17 ≤ p.length) :
    checksumPasses p ↔ negateSum (sumBytes (p.take 11)) = p[11] := by
  have h11 : 11 < p.length := by omega
  simp [checksumPasses, checksum_of_le h11.le, List.getElem?_eq_getElem h11, eq_comm]

theorem crcPasses_iff {p : Memory} {stored : Word} (hs : be32 p (12 + declaredSize p) = .ok stored) :
    crcPasses p ↔ crcBytes Config.crcInit (p.take (p.length - 5)) ^^^ Config.crcXorOut = stored := by
  simp [crcPasses, hs, eq_comm]

theorem markersPass_iff {p : Memory} (h : 17 + declaredSize p ≤ p.length) :
    markersPass p ↔ ¬ markersWrong p[0] p[16 + declaredSize p] = true := by
  have h0 : 0 < p.length := by omega
  have hstop : 16 + declaredSize p < p.length := by omega
  simp [markersPass, markersWrong_iff, List.getElem?_eq_getElem h0, List.getElem?_eq_getElem hstop]

/-! ### The checks of `DEC.S` in their order (R161) -/

theorem decodeSecure_of_not_checksumPasses {p : Memory} (h : 17 ≤ p.length) (hck : ¬ checksumPasses p) :
    decodeSecure p = raise .checksumMismatch := by
  rw [checksumPasses_iff h] at hck
  rw [decodeSecure_of_le h, if_pos hck]

/-- After check 2 the decoder goes on with the declared size. -/
theorem decodeSecure_of_checksumPasses {p : Memory} (h : 17 ≤ p.length) (hck : checksumPasses p) :
    ∃ cs : Half, cs.toNat = declaredSize p ∧ decodeSecure p = decodeSecureBody p p[11] cs := by
  rw [checksumPasses_iff h] at hck
  refine ⟨_, ?_, by rw [decodeSecure_of_le h, if_neg (not_not.mpr hck)]⟩
  rw [declaredSize_eq_of_le h, BitVec.toNat_ofNat]
  omega

theorem decodeSecure_of_lt_declaredSize {p : Memory} (h : 17 ≤ p.length) (hck : checksumPasses p)
    (hsize : p.length < 17 + declaredSize p) : decodeSecure p = raise .frameTooShort := by
  obtain ⟨cs, hcs, hbody⟩ := decodeSecure_of_checksumPasses h hck
  rw [hbody, decodeSecureBody_of_lt (by omega)]

/-- Checks 4 and 5, as the spec states them, on a packet that is long enough. -/
theorem decodeSecure_of_declaredSize_le {p : Memory} (h : 17 ≤ p.length) (hck : checksumPasses p)
    (hsize : 17 + declaredSize p ≤ p.length) :
    (¬ crcPasses p → decodeSecure p = raise .crcMismatch) ∧
    (crcPasses p → ¬ markersPass p → decodeSecure p = raise .framingError) ∧
    (crcPasses p → markersPass p → ∃ f, decodeSecure p = .ok f) := by
  obtain ⟨cs, hcs, hbody⟩ := decodeSecure_of_checksumPasses h hck
  have hstored := be32_of_le (buf := p) (off := 12 + declaredSize p) (by omega)
  rw [crcPasses_iff hstored, markersPass_iff hsize, hbody]
  simp only [← hcs] at hsize hstored ⊢
  rw [decodeSecureBody_of_le hsize hstored]
  refine ⟨fun hcrc => ?_, fun hcrc hmarkers => ?_, fun hcrc hmarkers => ?_⟩
  · rw [if_pos hcrc]
  · rw [if_neg (not_not.mpr hcrc), if_pos (not_not.mp hmarkers)]
  · rw [if_neg (not_not.mpr hcrc), if_neg hmarkers]
    exact ⟨_, secureFields_of_le (by omega)⟩

/-! ### The cause of each failure -/

/-- The condition R195 to R198 give for a failure of `DEC.S`, with the checks before it passed. -/
def secureFailureCause (p : Memory) : Failure → Prop
  | .frameTooShort => p.length < 17 ∨ checksumPasses p ∧ p.length < 17 + declaredSize p
  | .checksumMismatch => 17 ≤ p.length ∧ ¬ checksumPasses p
  | .crcMismatch => 17 ≤ p.length ∧ checksumPasses p ∧ 17 + declaredSize p ≤ p.length ∧ ¬ crcPasses p
  | .framingError =>
    17 ≤ p.length ∧ checksumPasses p ∧ 17 + declaredSize p ≤ p.length ∧ crcPasses p ∧ ¬ markersPass p
  | .invalidArgument | .contentTooLarge | .illegalCommand => False

theorem decodeSecure_of_secureFailureCause {p : Memory} {f : Failure} (h : secureFailureCause p f) :
    decodeSecure p = raise f := by
  cases f with
  | frameTooShort =>
    rcases Nat.lt_or_ge p.length 17 with hshort | hlen
    · exact decodeSecure_of_lt hshort
    · obtain ⟨hck, hsize⟩ := h.resolve_left hlen.not_gt
      exact decodeSecure_of_lt_declaredSize hlen hck hsize
  | checksumMismatch =>
    obtain ⟨hlen, hck⟩ := h
    exact decodeSecure_of_not_checksumPasses hlen hck
  | crcMismatch =>
    obtain ⟨hlen, hck, hsize, hcrc⟩ := h
    obtain ⟨onCrc, -, -⟩ := decodeSecure_of_declaredSize_le hlen hck hsize
    exact onCrc hcrc
  | framingError =>
    obtain ⟨hlen, hck, hsize, hcrc, hmarkers⟩ := h
    obtain ⟨-, onMarkers, -⟩ := decodeSecure_of_declaredSize_le hlen hck hsize
    exact onMarkers hcrc hmarkers
  | invalidArgument | contentTooLarge | illegalCommand => exact h.elim

/-- No packet is without an answer: one of the causes holds, or all five checks pass. -/
theorem secureFailureCause_or_decodeSecure_ok (p : Memory) :
    (∃ f, secureFailureCause p f) ∨ ∃ frame, decodeSecure p = .ok frame := by
  rcases Nat.lt_or_ge p.length 17 with hshort | hlen
  · exact .inl ⟨.frameTooShort, .inl hshort⟩
  by_cases hck : checksumPasses p
  case neg => exact .inl ⟨.checksumMismatch, hlen, hck⟩
  rcases Nat.lt_or_ge p.length (17 + declaredSize p) with hshort | hsize
  · exact .inl ⟨.frameTooShort, .inr ⟨hck, hshort⟩⟩
  by_cases hcrc : crcPasses p
  case neg => exact .inl ⟨.crcMismatch, hlen, hck, hsize, hcrc⟩
  by_cases hmarkers : markersPass p
  case neg => exact .inl ⟨.framingError, hlen, hck, hsize, hcrc, hmarkers⟩
  obtain ⟨-, -, accepted⟩ := decodeSecure_of_declaredSize_le hlen hck hsize
  exact .inr (accepted hcrc hmarkers)

theorem decodeSecure_eq_raise_iff {p : Memory} {f : Failure} : decodeSecure p = raise f ↔ secureFailureCause p f := by
  refine ⟨fun h => ?_, decodeSecure_of_secureFailureCause⟩
  obtain ⟨g, hg⟩ | ⟨frame, hok⟩ := secureFailureCause_or_decodeSecure_ok p
  · rw [decodeSecure_of_secureFailureCause hg, raise_inj] at h
    exact h ▸ hg
  · exact absurd (hok.symm.trans h) (ok_ne_raise f frame)

/-- `DEC.P` fails only by its length, below or above its limits (R180, R181). -/
theorem length_of_decodePlain_raise {p : Memory} {f : Failure} (h : decodePlain p = raise f) :
    f = .frameTooShort ∧ p.length < 5 ∨ f = .contentTooLarge ∧ 65540 < p.length := by
  rcases Nat.lt_or_ge p.length 5 with hshort | hlen
  · rw [decodePlain_of_lt hshort, raise_inj] at h
    exact .inl ⟨h.symm, hshort⟩
  rcases Nat.lt_or_ge 65540 p.length with hlong | hmax
  · rw [decodePlain_of_gt hlong, raise_inj] at h
    exact .inr ⟨h.symm, hlong⟩
  · rw [decodePlain_of_le hlen hmax] at h
    exact absurd h (ok_ne_raise _ _)

/-! ### The failures at the response port -/

/-- A decoder's failure response is the failure its pseudocode raised. -/
theorem finish_frame_eq_takeFailure_iff {r : Op Frame} {s : State} {f : Failure} :
    finish (.frame <$> r) s = .next (takeFailure f s) ↔ r = raise f := by
  refine ⟨fun h => ?_, fun h => by rw [h, op_map_raise, finish_raise]⟩
  obtain ⟨resp, hr, hrsp⟩ | ⟨g, hr, hrsp⟩ := finish_next h
  · cases r with
    | ok frame =>
      cases hr
      cases congrArg State.rsp hrsp
    | error e => cases hr
  · cases r with
    | ok frame => cases hr
    | error e =>
      cases hr
      cases congrArg State.rsp hrsp
      rfl

theorem decS_failsWith_iff {s : State} {f : Failure} : failsWith .decS s f ↔ secureFailureCause s.ibuf f :=
  finish_frame_eq_takeFailure_iff.trans decodeSecure_eq_raise_iff

theorem decP_failsWith_iff {s : State} {f : Failure} : failsWith .decP s f ↔ decodePlain s.ibuf = raise f :=
  finish_frame_eq_takeFailure_iff

/-- Settles O51: the causes of `DEC.S` are those of its pseudocode, and `DEC.P` fails only by its length. -/
theorem decodeFailuresHaveExactlyTheirCauses : Obligations.DecodeFailuresHaveExactlyTheirCauses := by
  unfold Obligations.DecodeFailuresHaveExactlyTheirCauses
  intro s
  refine ⟨decS_failsWith_iff, ?plainTooShort, decS_failsWith_iff, ?plainNoFraming, decS_failsWith_iff,
    decS_failsWith_iff⟩
  case plainTooShort =>
    rw [decP_failsWith_iff]
    refine ⟨fun h => ?_, decodePlain_of_lt⟩
    obtain ⟨-, hshort⟩ | ⟨hf, -⟩ := length_of_decodePlain_raise h
    · exact hshort
    · cases hf
  case plainNoFraming =>
    intro h
    obtain ⟨hf, -⟩ | ⟨hf, -⟩ := length_of_decodePlain_raise (decP_failsWith_iff.mp h) <;> cases hf

end Sys2Proof.Machine
end

section
/-! The command word (`30_encoding.md` sections 7 to 9): what the decoder selects, one rule a row of R82, and that it reads
back what the encoder packs. -/

namespace Sys2Proof

/-! ### What a command word selects -/

/-- The operation that `OP` and `SEC` select, with the operands the other fields give it (R80, R82). `RSV` is left out. -/
inductive Selects (cmd : Cmd) : Instr → Prop
  | setbit (hop : opField cmd = 0x01#8) : Selects cmd (.setbit (aField cmd) (bField cmd) (valField cmd))
  | getbit (hop : opField cmd = 0x02#8) : Selects cmd (.getbit (aField cmd) (bField cmd))
  | infoenc (hop : opField cmd = 0x03#8) :
      Selects cmd (.infoenc (hdpField cmd) (wfaField cmd) (rosField cmd) (aField cmd))
  | infodec (hop : opField cmd = 0x04#8) : Selects cmd (.infodec (aField cmd))
  | cksum (hop : opField cmd = 0x05#8) : Selects cmd .cksum
  | crc32 (hop : opField cmd = 0x06#8) : Selects cmd .crc32
  | encS (hop : opField cmd = 0x07#8) (hsec : secField cmd = true) :
      Selects cmd
        (.encS (hdpField cmd) (wfaField cmd) (rosField cmd) (aField cmd) (bField cmd) (pnOperand cmd))
  | encP (hop : opField cmd = 0x07#8) (hsec : secField cmd = false) :
      Selects cmd (.encP (hdpField cmd) (wfaField cmd) (rosField cmd) (aField cmd) (pnOperand cmd))
  | decS (hop : opField cmd = 0x08#8) (hsec : secField cmd = true) : Selects cmd .decS
  | decP (hop : opField cmd = 0x08#8) (hsec : secField cmd = false) : Selects cmd .decP

theorem decode_of_selects {cmd : Cmd} {i : Instr} (hrsv : rsvField cmd = 0#2) (h : Selects cmd i) :
    decode cmd = .ok i := by
  cases h with
  | setbit hop | getbit hop | infoenc hop | infodec hop | cksum hop | crc32 hop =>
    rw [decode, if_neg (not_not.mpr hrsv), hop]
    rfl
  | encS hop hsec | encP hop hsec | decS hop hsec | decP hop hsec =>
    rw [decode, if_neg (not_not.mpr hrsv), hop, hsec]
    rfl

theorem selects_of_decode {cmd : Cmd} {i : Instr} (h : decode cmd = .ok i) : rsvField cmd = 0#2 ∧ Selects cmd i := by
  by_cases hrsv : rsvField cmd = 0#2
  case neg =>
    rw [decode, if_pos hrsv] at h
    cases h
  refine ⟨hrsv, ?_⟩
  rw [decode, if_neg (not_not.mpr hrsv)] at h
  by_cases h1 : opField cmd = 0x01#8
  case pos => exact Except.ok.inj ((if_pos h1).symm.trans h) ▸ .setbit h1
  rw [if_neg h1] at h
  by_cases h2 : opField cmd = 0x02#8
  case pos => exact Except.ok.inj ((if_pos h2).symm.trans h) ▸ .getbit h2
  rw [if_neg h2] at h
  by_cases h3 : opField cmd = 0x03#8
  case pos => exact Except.ok.inj ((if_pos h3).symm.trans h) ▸ .infoenc h3
  rw [if_neg h3] at h
  by_cases h4 : opField cmd = 0x04#8
  case pos => exact Except.ok.inj ((if_pos h4).symm.trans h) ▸ .infodec h4
  rw [if_neg h4] at h
  by_cases h5 : opField cmd = 0x05#8
  case pos => exact Except.ok.inj ((if_pos h5).symm.trans h) ▸ .cksum h5
  rw [if_neg h5] at h
  by_cases h6 : opField cmd = 0x06#8
  case pos => exact Except.ok.inj ((if_pos h6).symm.trans h) ▸ .crc32 h6
  rw [if_neg h6] at h
  by_cases h7 : opField cmd = 0x07#8
  case pos =>
    rw [if_pos h7] at h
    by_cases hsec : secField cmd = true
    case pos => exact Except.ok.inj ((if_pos hsec).symm.trans h) ▸ .encS h7 hsec
    case neg => exact Except.ok.inj ((if_neg hsec).symm.trans h) ▸ .encP h7 (Bool.eq_false_iff.mpr hsec)
  rw [if_neg h7] at h
  by_cases h8 : opField cmd = 0x08#8
  case pos =>
    rw [if_pos h8] at h
    by_cases hsec : secField cmd = true
    case pos => exact Except.ok.inj ((if_pos hsec).symm.trans h) ▸ .decS h8 hsec
    case neg => exact Except.ok.inj ((if_neg hsec).symm.trans h) ▸ .decP h8 (Bool.eq_false_iff.mpr hsec)
  rw [if_neg h8] at h
  cases h

/-- The decoder, said once: `RSV` is 0 and the other fields select the operation. -/
theorem decode_eq_ok_iff {cmd : Cmd} {i : Instr} : decode cmd = .ok i ↔ rsvField cmd = 0#2 ∧ Selects cmd i :=
  ⟨selects_of_decode, fun h => decode_of_selects h.1 h.2⟩

/-! ### Decoding what the encoder packs -/

/-- The packet number of a packed word is the number field where `PNV` is set. -/
theorem pnOperand_packCmd (pn : Option Word) (b a : Byte) (ros wfa hdp val sec : Bool) (op : Byte) :
    pnOperand (packCmd (pn.getD 0) b a ros wfa hdp val pn.isSome sec op) = pn := by
  rw [pnOperand, pnvField_packCmd, pnField_packCmd]
  cases pn <;> rfl

theorem rsvField_encode (i : Instr) : rsvField (encode i) = 0#2 := by
  cases i <;> exact rsvField_packCmd ..

theorem selects_encode (i : Instr) : Selects (encode i) i := by
  cases i with
  | setbit byte index value =>
    have h := Selects.setbit (cmd := encode (.setbit byte index value)) (opField_packCmd ..)
    rwa [encode, aField_packCmd, bField_packCmd, valField_packCmd] at h
  | getbit byte index =>
    have h := Selects.getbit (cmd := encode (.getbit byte index)) (opField_packCmd ..)
    rwa [encode, aField_packCmd, bField_packCmd] at h
  | infoenc hdp wfa ros info =>
    have h := Selects.infoenc (cmd := encode (.infoenc hdp wfa ros info)) (opField_packCmd ..)
    rwa [encode, hdpField_packCmd, wfaField_packCmd, rosField_packCmd, aField_packCmd] at h
  | infodec byte =>
    have h := Selects.infodec (cmd := encode (.infodec byte)) (opField_packCmd ..)
    rwa [encode, aField_packCmd] at h
  | cksum => exact .cksum (opField_packCmd ..)
  | crc32 => exact .crc32 (opField_packCmd ..)
  | encS hdp wfa ros info dev pn =>
    have h := Selects.encS (cmd := encode (.encS hdp wfa ros info dev pn)) (opField_packCmd ..) (secField_packCmd ..)
    rwa [encode, hdpField_packCmd, wfaField_packCmd, rosField_packCmd, aField_packCmd, bField_packCmd,
      pnOperand_packCmd] at h
  | encP hdp wfa ros info pn =>
    have h := Selects.encP (cmd := encode (.encP hdp wfa ros info pn)) (opField_packCmd ..) (secField_packCmd ..)
    rwa [encode, hdpField_packCmd, wfaField_packCmd, rosField_packCmd, aField_packCmd, pnOperand_packCmd] at h
  | decS => exact .decS (opField_packCmd ..) (secField_packCmd ..)
  | decP => exact .decP (opField_packCmd ..) (secField_packCmd ..)

theorem decode_encode (i : Instr) : decode (encode i) = .ok i :=
  decode_of_selects (rsvField_encode i) (selects_encode i)

/-- Settles O1: each field the encoder packs is the field the decoder reads, operation by operation. -/
theorem decodeInvertsEncode : Obligations.DecodeInvertsEncode :=
  decode_encode

end Sys2Proof
end

section
/-! What an operation can do (`10_state.md` R30): its pseudocode gives a result that depends on the counter and the buffer
alone, and the state moves by that response and, after a successful encode with the number omitted, by one count. -/

namespace Sys2Proof.Machine

/-! ### The pseudocode of an operation and its count -/

/-- What the pseudocode of an operation gives for a value of `SEQ` and a buffer. -/
def resultOf : Instr → Word → Memory → Op Response
  | .setbit byte index value, _, _ => .setbit <$> setBit byte index value
  | .getbit byte index, _, _ => .getbit <$> getBit byte index
  | .infoenc hdp wfa ros info, _, _ => .ok (.infoenc (infoEnc hdp wfa ros info))
  | .infodec byte, _, _ => .ok (.infodec (infoDec byte))
  | .cksum, _, buf => .cksum <$> checksum buf buf.length
  | .crc32, _, buf => .crc32 <$> crc32 buf buf.length
  | .encS hdp wfa ros info dev pn, seq, buf => .packet <$> encodeSecure hdp wfa ros info dev (pn.getD seq) buf
  | .encP hdp wfa ros info pn, seq, buf => .packet <$> encodePlain hdp wfa ros info (pn.getD seq) buf
  | .decS, _, buf => .frame <$> decodeSecure buf
  | .decP, _, buf => .frame <$> decodePlain buf

/-- The operation is an encode with the packet number omitted (`PNV = 0`). -/
def omitsNumber : Instr → Bool
  | .encS _ _ _ _ _ pn => pn.isNone
  | .encP _ _ _ _ pn => pn.isNone
  | .setbit _ _ _ | .getbit _ _ | .infoenc _ _ _ _ | .infodec _ | .cksum | .crc32 | .decS | .decP => false

/-- The operation draws a number from `SEQ` when it runs on this buffer (R140, R141). -/
def draws (i : Instr) (buf : Memory) : Bool :=
  omitsNumber i && decide (buf.length ≤ 65535)

/-- `SEQ` one higher if the operation draws a number, and everything else as it was. -/
def count (i : Instr) (s : State) : State :=
  { s with seq := if draws i s.ibuf then s.seq + 1 else s.seq }

theorem packetNumber_eq_getD (pn : Option Word) (s : State) : packetNumber pn s = pn.getD s.seq := by
  cases pn <;> rfl

theorem count_of_not_draws {i : Instr} {s : State} (h : draws i s.ibuf = false) : count i s = s := by
  simp [count, h]

theorem advanceSeq_eq (pn : Option Word) (s : State) :
    advanceSeq pn s = { s with seq := if pn.isNone then s.seq + 1 else s.seq } := by
  cases pn with
  | none => simp only [Option.isNone_none, if_true, ← advanceSeq_none_seq]; rfl
  | some v => rfl

/-- The end of an encode, as the end of any operation: on content that is not too long the packet is delivered and the
number counted. -/
theorem finishEncode_eq_finish {pn : Option Word} {r : Op Memory} {i : Instr} {s : State}
    (homits : omitsNumber i = pn.isNone) (hok : s.ibuf.length ≤ 65535 → ∃ p, r = .ok p)
    (hraise : 65535 < s.ibuf.length → r = raise .contentTooLarge) :
    finishEncode pn r s = finish (.packet <$> r) (count i s) := by
  rcases Nat.lt_or_ge 65535 s.ibuf.length with hlong | hle
  · have hcount : draws i s.ibuf = false := by simp [draws, hlong]
    rw [hraise hlong, count_of_not_draws hcount, op_map_raise, finish_raise, finishEncode_raise]
  · obtain ⟨p, rfl⟩ := hok hle
    simp [advanceSeq_eq, count, draws, homits, hle]

/-- Every operation ends in the response of its pseudocode, at the state with its number counted. -/
theorem exec_eq_finish (i : Instr) (s : State) : exec i s = finish (resultOf i s.seq s.ibuf) (count i s) := by
  cases i with
  | encS hdp wfa ros info dev pn =>
    rw [exec, execEncS, packetNumber_eq_getD, resultOf]
    refine finishEncode_eq_finish rfl (fun h => ?_) (encodeSecure_of_gt · ..)
    exact (encodeSecure_length h hdp wfa ros info dev _).imp fun _ hp => hp.1
  | encP hdp wfa ros info pn =>
    rw [exec, execEncP, packetNumber_eq_getD, resultOf]
    refine finishEncode_eq_finish rfl (fun h => ?_) (encodePlain_of_gt · ..)
    exact (encodePlain_length h hdp wfa ros info _).imp fun _ hp => hp.1
  | _ => rfl

/-! ### Results and failures, operation by operation -/

theorem op_map_eq_ok {α β : Type} {g : α → β} {x : Op α} {b : β} (h : g <$> x = .ok b) : ∃ a, x = .ok a ∧ g a = b := by
  cases x with
  | ok a => exact ⟨a, rfl, Except.ok.inj h⟩
  | error e => cases h

theorem op_map_eq_raise {α β : Type} {g : α → β} {x : Op α} {f : Failure} (h : g <$> x = raise f) : x = raise f := by
  cases x with
  | ok a => cases h
  | error e =>
    cases h
    rfl

/-- The kind of result each operation delivers (R29). -/
inductive Delivers : Instr → Response → Prop
  | setbit {byte index value} (b : Byte) : Delivers (.setbit byte index value) (.setbit b)
  | getbit {byte index} (v : Bool) : Delivers (.getbit byte index) (.getbit v)
  | infoenc {hdp wfa ros info} (b : Byte) : Delivers (.infoenc hdp wfa ros info) (.infoenc b)
  | infodec {byte} (x : InfoSection) : Delivers (.infodec byte) (.infodec x)
  | cksum (b : Byte) : Delivers .cksum (.cksum b)
  | crc32 (w : Word) : Delivers .crc32 (.crc32 w)
  | encS {hdp wfa ros info dev pn} (p : Memory) : Delivers (.encS hdp wfa ros info dev pn) (.packet p)
  | encP {hdp wfa ros info pn} (p : Memory) : Delivers (.encP hdp wfa ros info pn) (.packet p)
  | decS (f : Frame) (h : SecureHeader) (hsec : f.secureHeader = some h) : Delivers .decS (.frame f)
  | decP (f : Frame) (hsec : f.secureHeader = none) : Delivers .decP (.frame f)

theorem secureHeader_of_decodeSecure_ok {p : Memory} {f : Frame} (h : decodeSecure p = .ok f) :
    ∃ hdr, f.secureHeader = some hdr := by
  obtain ⟨_, _, _, _, hbody⟩ := reads_of_decodeSecure_ok h
  obtain ⟨_, _, _, _, _, _, hfields⟩ := reads_of_decodeSecureBody_ok hbody
  obtain ⟨_, _, hheader, _⟩ := reads_of_secureFields_ok hfields
  exact ⟨_, hheader⟩

theorem secureHeader_of_decodePlain_ok {p : Memory} {f : Frame} (h : decodePlain p = .ok f) :
    f.secureHeader = none := by
  rcases Nat.lt_or_ge p.length 5 with hshort | hlen
  · cases (decodePlain_of_lt hshort).symm.trans h
  rcases Nat.lt_or_ge 65540 p.length with hlong | hmax
  · cases (decodePlain_of_gt hlong).symm.trans h
  · cases (decodePlain_of_le hlen hmax).symm.trans h
    rfl

theorem delivers_of_resultOf_ok {i : Instr} {seq : Word} {buf : Memory} {resp : Response}
    (h : resultOf i seq buf = .ok resp) : Delivers i resp := by
  cases i with
  | infoenc hdp wfa ros info =>
    cases h
    exact .infoenc _
  | infodec byte =>
    cases h
    exact .infodec _
  | decS =>
    obtain ⟨f, hf, rfl⟩ := op_map_eq_ok h
    obtain ⟨hdr, hsec⟩ := secureHeader_of_decodeSecure_ok hf
    exact .decS f hdr hsec
  | decP =>
    obtain ⟨f, hf, rfl⟩ := op_map_eq_ok h
    exact .decP f (secureHeader_of_decodePlain_ok hf)
  | _ =>
    obtain ⟨a, -, rfl⟩ := op_map_eq_ok h
    constructor

theorem eq_of_setBit_raise {b i : Byte} {v : Bool} {f : Failure} (h : setBit b i v = raise f) :
    f = .invalidArgument := by
  rcases Nat.lt_or_ge 7 i.toNat with hgt | hle
  · exact ((raise_inj ..).mp ((setBit_of_gt hgt b v).symm.trans h)).symm
  · cases (setBit_of_le hle b v).symm.trans h

theorem eq_of_getBit_raise {b i : Byte} {f : Failure} (h : getBit b i = raise f) : f = .invalidArgument := by
  rcases Nat.lt_or_ge 7 i.toNat with hgt | hle
  · exact ((raise_inj ..).mp ((getBit_of_gt hgt b).symm.trans h)).symm
  · cases (getBit_of_le hle b).symm.trans h

/-- An encode that fails does so with `ContentTooLarge`, and then its content is too long. -/
theorem length_of_encodeSecure_raise {hdp wfa ros : Bool} {info dev : Byte} {pn : Word} {content : Memory} {f : Failure}
    (h : encodeSecure hdp wfa ros info dev pn content = raise f) : f = .contentTooLarge ∧ 65535 < content.length := by
  rcases Nat.lt_or_ge 65535 content.length with hgt | hle
  · exact ⟨((raise_inj ..).mp ((encodeSecure_of_gt hgt ..).symm.trans h)).symm, hgt⟩
  · cases (encodeSecure_of_le hle ..).symm.trans h

theorem length_of_encodePlain_raise {hdp wfa ros : Bool} {info : Byte} {pn : Word} {content : Memory} {f : Failure}
    (h : encodePlain hdp wfa ros info pn content = raise f) : f = .contentTooLarge ∧ 65535 < content.length := by
  rcases Nat.lt_or_ge 65535 content.length with hgt | hle
  · exact ⟨((raise_inj ..).mp ((encodePlain_of_gt hgt ..).symm.trans h)).symm, hgt⟩
  · cases (encodePlain_of_le hle ..).symm.trans h

/-- A failure is one listed for the operation (R191), and no number is drawn with it. -/
theorem mayRaise_of_resultOf_raise {i : Instr} {seq : Word} {buf : Memory} {f : Failure}
    (h : resultOf i seq buf = raise f) : f ∈ Spec.mayRaise i ∧ draws i buf = false := by
  cases i with
  | infoenc hdp wfa ros info => cases h
  | infodec byte => cases h
  | cksum =>
    rw [resultOf, checksum_of_le (Nat.le_refl _)] at h
    cases h
  | crc32 =>
    rw [resultOf, crc32_of_le (Nat.le_refl _)] at h
    cases h
  | setbit byte index value =>
    exact ⟨List.mem_singleton.mpr (eq_of_setBit_raise (op_map_eq_raise h)), rfl⟩
  | getbit byte index => exact ⟨List.mem_singleton.mpr (eq_of_getBit_raise (op_map_eq_raise h)), rfl⟩
  | encS hdp wfa ros info dev pn =>
    obtain ⟨rfl, hlong⟩ := length_of_encodeSecure_raise (op_map_eq_raise h)
    simp [Spec.mayRaise, draws, hlong]
  | encP hdp wfa ros info pn =>
    obtain ⟨rfl, hlong⟩ := length_of_encodePlain_raise (op_map_eq_raise h)
    simp [Spec.mayRaise, draws, hlong]
  | decS =>
    have hcause := decodeSecure_eq_raise_iff.mp (op_map_eq_raise h)
    cases f with
    | invalidArgument | contentTooLarge | illegalCommand => exact hcause.elim
    | frameTooShort | framingError | checksumMismatch | crcMismatch => exact ⟨by decide, rfl⟩
  | decP =>
    obtain ⟨rfl, -⟩ | ⟨rfl, -⟩ := length_of_decodePlain_raise (op_map_eq_raise h)
    · exact ⟨by decide, rfl⟩
    · exact ⟨by decide, rfl⟩

/-- Everything an operation can do: it delivers its kind of result and counts the number it drew, or it fails with one of
its failures and changes nothing else. -/
theorem exec_cases {i : Instr} {s t : State} (h : exec i s = .next t) :
    (∃ resp, resultOf i s.seq s.ibuf = .ok resp ∧ Delivers i resp ∧ t = respond resp (count i s)) ∨
    (∃ f ∈ Spec.mayRaise i, draws i s.ibuf = false ∧ t = takeFailure f s) := by
  rw [exec_eq_finish] at h
  obtain ⟨resp, hr, rfl⟩ | ⟨f, hr, rfl⟩ := finish_next h
  · exact .inl ⟨resp, hr, delivers_of_resultOf_ok hr, rfl⟩
  · obtain ⟨hmem, hdraws⟩ := mayRaise_of_resultOf_raise hr
    exact .inr ⟨f, hmem, hdraws, by rw [count_of_not_draws hdraws]⟩

end Sys2Proof.Machine
end

section
/-! The invariant (`10_state.md` R28, `60_exceptions.md` R208) and the frame of an operation. -/

namespace Sys2Proof.Machine

/-! ### What an operation leaves unchanged -/

section
variable {i : Instr} {s t : State}

theorem exec_ibuf (h : exec i s = .next t) : t.ibuf = s.ibuf := by
  obtain ⟨_, _, _, rfl⟩ | ⟨_, _, _, rfl⟩ := exec_cases h <;> rfl

theorem exec_inputs (h : exec i s = .next t) : t.inputs = s.inputs := by
  obtain ⟨_, _, _, rfl⟩ | ⟨_, _, _, rfl⟩ := exec_cases h <;> rfl

/-- An operation that draws no number leaves the counter alone. -/
theorem exec_seq_of_not_draws (hdraws : draws i s.ibuf = false) (h : exec i s = .next t) : t.seq = s.seq := by
  obtain ⟨_, _, _, rfl⟩ | ⟨_, _, _, rfl⟩ := exec_cases h
  · rw [respond_seq, count_of_not_draws hdraws]
  · rfl

theorem draws_of_not_omitsNumber (h : omitsNumber i = false) (buf : Memory) : draws i buf = false := by
  rw [draws, h, Bool.false_and]

/-- A failure response is the whole change, and no number is drawn with it. -/
theorem exec_failure {f : Failure} (h : exec i s = .next t) (hrsp : t.rsp = some (.failure f)) :
    f ∈ Spec.mayRaise i ∧ draws i s.ibuf = false ∧ t = takeFailure f s := by
  obtain ⟨resp, _, hdel, rfl⟩ | ⟨g, hg, hdraws, rfl⟩ := exec_cases h
  · cases hrsp
    cases hdel
  · cases hrsp
    exact ⟨hg, hdraws, rfl⟩

end

/-! ### The invariant -/

/-- The response on the port is sound for the bytes in `IBUF`. -/
def RspSound (s : State) : Prop :=
  ∀ r, s.rsp = some r → responseSound s.ibuf r

theorem exec_rspSound {i : Instr} {s t : State} (h : exec i s = .next t) : RspSound t := by
  obtain ⟨t', resp, h', hrsp, hsound⟩ := exec_answersSoundly i s
  cases h.symm.trans h'
  intro r hr
  cases hrsp.symm.trans hr
  rwa [exec_ibuf h]

/-- A performed request leaves `IBUF` as accepted and a sound response, whatever its word. -/
theorem perform_rspSound {cmd : Cmd} {s t : State} (h : perform cmd s = .next t) : t.ibuf = s.ibuf ∧ RspSound t := by
  unfold perform at h
  split at h
  case h_1 => exact ⟨exec_ibuf h, exec_rspSound h⟩
  case h_2 =>
    cases h
    refine ⟨rfl, fun r hr => ?_⟩
    cases hr
    trivial

/-- The three things a step can do: idle, reset, or perform a well-formed request. -/
theorem step_cases {s t : State} (h : step s = .next t) :
    t = s ∨ (∃ rest, t = applyReset rest s) ∨
    ∃ r rest, r.wf = true ∧ perform r.cmd (accept r rest s) = .next t := by
  unfold step at h
  split at h
  case h_1 => exact .inl (Host.Outcome.next.inj h).symm
  case h_2 rest _ => exact .inr (.inl ⟨rest, (Host.Outcome.next.inj h).symm⟩)
  case h_3 r rest _ =>
    split at h
    case isTrue hwf => exact .inr (.inr ⟨r, rest, hwf, h⟩)
    case isFalse => cases h

theorem inv_of_rsp_eq_none {s : State} (hwf : Memory.wf s.ibuf = true) (h : s.rsp = none) : Inv s :=
  ⟨hwf, fun r hr => by simp [h] at hr⟩

/-- Settles O15: idling changes nothing, a reset leaves no response, and an operation's response is sound for the buffer
that it was accepted with. -/
theorem everyStepKeepsTheInvariant : Obligations.EveryStepKeepsTheInvariant := by
  unfold Obligations.EveryStepKeepsTheInvariant
  intro s t hinv h
  obtain rfl | ⟨rest, rfl⟩ | ⟨r, rest, hwf, h⟩ := step_cases h
  · exact hinv
  · exact inv_of_rsp_eq_none hinv.1 rfl
  · obtain ⟨hibuf, hsound⟩ := perform_rspSound h
    exact ⟨by rw [hibuf]; exact accept_wf hwf, hsound⟩

/-- Settles O14: the buffer is empty and no response is pending. -/
theorem invariantHoldsAfterReset : Obligations.InvariantHoldsAfterReset :=
  inv_of_rsp_eq_none wf_nil rfl

end Sys2Proof.Machine
end

section
/-! Reading a field back (`20_memory.md` R41 to R44): the value written, and where a read succeeds. -/

namespace Sys2Proof.Machine

/-! ### Reading a field that was written -/

/-- One byte more of a big-endian value. -/
theorem mod_pow_succ_of_shiftRight (w k : Nat) : w >>> 8 % 256 ^ k * 256 + w % 256 = w % 256 ^ (k + 1) := by
  have hdiv : w >>> 8 = w / 256 := Nat.shiftRight_eq_div_pow w 8
  rw [hdiv, Nat.pow_succ' (m := 256), Nat.mod_mul]
  omega

/-- Where the bytes of a field of `n` stand, the first `k` of them read as its upper part. -/
theorem memRead_upper_of_bytes {buf : Memory} {off n v : Nat}
    (h : ∀ k < n, buf[off + k]? = some (BitVec.ofNat 8 (v >>> (8 * (n - 1 - k))))) {k : Nat} (hk : k ≤ n) :
    memRead buf off k = .ok (v >>> (8 * (n - k)) % 256 ^ k) := by
  induction k with
  | zero => simp [Nat.mod_one]
  | succ k ih =>
    have hshift : v >>> (8 * (n - k)) = (v >>> (8 * (n - (k + 1)))) >>> 8 := by
      rw [← Nat.shiftRight_add]
      congr 1
      omega
    rw [memRead_succ_of_memRead (ih (by omega)) (h k hk), hshift, ← mod_pow_succ_of_shiftRight, Nat.sub_right_comm,
      BitVec.toNat_ofNat]
    rfl

/-- The whole field reads as its value, less what its width cannot hold. -/
theorem memRead_of_bytes {buf : Memory} {off n v : Nat}
    (h : ∀ k < n, buf[off + k]? = some (BitVec.ofNat 8 (v >>> (8 * (n - 1 - k))))) :
    memRead buf off n = .ok (v % 256 ^ n) := by
  simpa using memRead_upper_of_bytes h (Nat.le_refl n)

/-- Settles O27: the bytes of the written field stand where it is read. -/
theorem readOfWrittenFieldGivesTheValue : Obligations.ReadOfWrittenFieldGivesTheValue := by
  unfold Obligations.ReadOfWrittenFieldGivesTheValue
  intro before after n v
  exact memRead_of_bytes fun k hk => getElem?_append_beBytes before after v hk

/-! ### Where a read succeeds -/

theorem readByte_ok_iff_lt {buf : Memory} {off : Nat} : (∃ b, readByte buf off = .ok b) ↔ off < buf.length := by
  simp [readByte_ok_iff, ← Option.isSome_iff_exists]

theorem memRead_of_le {buf : Memory} {off n : Nat} (h : off + n ≤ buf.length) : ∃ v, memRead buf off n = .ok v := by
  induction n with
  | zero => exact ⟨0, rfl⟩
  | succ n ih =>
    obtain ⟨v, hv⟩ := ih (by omega)
    exact ⟨_, memRead_succ_of_memRead hv (List.getElem?_eq_getElem h)⟩

/-- The last byte of the field is read too, so it lies inside the buffer. -/
theorem le_of_memRead_succ {buf : Memory} {off n v : Nat} (h : memRead buf off (n + 1) = .ok v) :
    off + (n + 1) ≤ buf.length := by
  obtain ⟨_, _, h⟩ := op_bind_ok h
  obtain ⟨b, hb, _⟩ := op_bind_ok h
  exact readByte_ok_iff_lt.mp ⟨b, hb⟩

theorem readRange_ok_iff_le {buf : Memory} {off n : Nat} :
    (∃ m, readRange buf off n = .ok m) ↔ off + n ≤ buf.length := by
  refine ⟨fun ⟨m, hm⟩ => ?_, fun h => ⟨_, readRange_of_le h⟩⟩
  unfold readRange at hm
  split at hm
  case isTrue h => exact h
  case isFalse => cases hm

/-- Settles O28: inside, every byte is read; past the end, the last byte is not. -/
theorem readSucceedsExactlyInsideTheBuffer : Obligations.ReadSucceedsExactlyInsideTheBuffer := by
  unfold Obligations.ReadSucceedsExactlyInsideTheBuffer
  intro buf off n hn
  obtain ⟨n, rfl⟩ := Nat.exists_eq_succ_of_ne_zero hn.ne'
  exact ⟨⟨fun ⟨_, hv⟩ => le_of_memRead_succ hv, memRead_of_le⟩, readRange_ok_iff_le⟩

/-! ### The bytes of a field that was read -/

theorem memRead_lt {buf : Memory} {off n v : Nat} (h : memRead buf off n = .ok v) : v < 256 ^ n := by
  induction n generalizing v with
  | zero =>
    cases h
    decide
  | succ n ih =>
    obtain ⟨high, hhigh, h⟩ := op_bind_ok h
    obtain ⟨low, -, h⟩ := op_bind_ok h
    cases h
    have hlow := low.isLt
    have := ih hhigh
    rw [Nat.pow_succ]
    omega

/-- The last byte of a field, instead of the first. -/
theorem beBytes_succ_eq_append (n v : Nat) : beBytes (n + 1) v = beBytes n (v >>> 8) ++ [BitVec.ofNat 8 v] := by
  induction n with
  | zero => rfl
  | succ n ih =>
    have hshift : v >>> (8 * (n + 1)) = v >>> 8 >>> (8 * n) := by rw [← Nat.shiftRight_add, Nat.mul_succ, Nat.add_comm]
    rw [beBytes, ih, hshift]
    rfl

theorem drop_of_getElem? {buf : Memory} {off : Nat} {b : Byte} (h : buf[off]? = some b) :
    buf.drop off = b :: buf.drop (off + 1) := by
  obtain ⟨hlt, rfl⟩ := List.getElem?_eq_some_iff.mp h
  exact List.drop_eq_getElem_cons hlt

theorem drop_of_readRange {buf m : Memory} {off n : Nat} (h : readRange buf off n = .ok m) :
    m.length = n ∧ buf.drop off = m ++ buf.drop (off + n) := by
  have hle := readRange_ok_iff_le.mp ⟨m, h⟩
  rw [readRange_of_le hle] at h
  cases h
  refine ⟨by simp; omega, ?_⟩
  rw [← List.drop_drop, List.take_append_drop]

/-- A field that reads as `v` is the field that writing `v` gives. -/
theorem drop_of_memRead {buf : Memory} {off n v : Nat} (h : memRead buf off n = .ok v) :
    buf.drop off = beBytes n v ++ buf.drop (off + n) := by
  induction n generalizing v with
  | zero => rfl
  | succ n ih =>
    obtain ⟨high, hhigh, h⟩ := op_bind_ok h
    obtain ⟨low, hlow, h⟩ := op_bind_ok h
    cases h
    have hlt := low.isLt
    have hshift : (high * 256 + low.toNat) >>> 8 = high := by
      rw [Nat.shiftRight_eq_div_pow]
      omega
    have hbyte : BitVec.ofNat 8 (high * 256 + low.toNat) = low := by
      apply BitVec.eq_of_toNat_eq
      rw [BitVec.toNat_ofNat]
      omega
    rw [ih hhigh, drop_of_getElem? (readByte_ok_iff.mp hlow), beBytes_succ_eq_append, hshift, hbyte, List.append_assoc]
    rfl

theorem getElem?_of_memRead {buf : Memory} {off n v k : Nat} (h : memRead buf off n = .ok v) (hk : k < n) :
    buf[off + k]? = (beBytes n v)[k]? := by
  rw [← List.getElem?_drop, drop_of_memRead h, List.getElem?_append_left (by simpa using hk)]

theorem memRead_congr {buf buf' : Memory} {off n : Nat} (h : ∀ k < n, buf[off + k]? = buf'[off + k]?) :
    memRead buf off n = memRead buf' off n := by
  induction n with
  | zero => rfl
  | succ n ih =>
    have hbyte : readByte buf (off + n) = readByte buf' (off + n) := by rw [readByte, readByte, h n (by omega)]
    rw [memRead, memRead, ih fun k hk => h k (by omega), hbyte]

theorem be16_eq_ok_iff {buf : Memory} {off : Nat} {w : Half} : be16 buf off = .ok w ↔ memRead buf off 2 = .ok w.toNat := by
  refine ⟨fun h => ?_, fun h => by rw [be16_of_memRead h, BitVec.ofNat_toNat, BitVec.setWidth_eq]⟩
  obtain ⟨v, hv, h⟩ := op_bind_ok h
  cases h
  have hlt : v < 2 ^ 16 := memRead_lt hv
  rw [hv, BitVec.toNat_ofNat, Nat.mod_eq_of_lt hlt]

theorem be32_eq_ok_iff {buf : Memory} {off : Nat} {w : Word} : be32 buf off = .ok w ↔ memRead buf off 4 = .ok w.toNat := by
  refine ⟨fun h => ?_, fun h => by rw [be32_of_memRead h, BitVec.ofNat_toNat, BitVec.setWidth_eq]⟩
  obtain ⟨v, hv, h⟩ := op_bind_ok h
  cases h
  have hlt : v < 2 ^ 32 := memRead_lt hv
  rw [hv, BitVec.toNat_ofNat, Nat.mod_eq_of_lt hlt]

end Sys2Proof.Machine
end

section
/-! The bit functions and the info byte, bit by bit (`40_bitops.md` R100 to R103, `41_infobyte.md` R110 to R113). -/

namespace Sys2Proof.Machine

open Sys2Proof.Spec

/-! ### One bit of a byte -/

/-- The byte with bit `n` set to `v`. -/
def withBit (b : Byte) (n : Nat) (v : Bool) : Byte :=
  if v then b ||| (1#8 <<< n) else b &&& ~~~(1#8 <<< n)

theorem one_shiftLeft_getLsbD {n : Nat} (hn : n < 8) (j : Nat) : (1#8 <<< n).getLsbD j = decide (j = n) := by
  simpa [boolByte] using boolByte_shiftLeft_getLsbD true hn j

theorem withBit_getLsbD (b : Byte) {n j : Nat} (v : Bool) (hn : n < 8) (hj : j < 8) :
    (withBit b n v).getLsbD j = if j = n then v else b.getLsbD j := by
  unfold withBit
  cases v
  · simp only [Bool.false_eq_true, if_false, BitVec.getLsbD_and, BitVec.getLsbD_not, one_shiftLeft_getLsbD hn, hj]
    split <;> simp [*]
  · simp only [if_true, BitVec.getLsbD_or, one_shiftLeft_getLsbD hn]
    split <;> simp [*]

theorem setBit_eq_withBit {i : Byte} (h : i.toNat ≤ 7) (b : Byte) (v : Bool) :
    setBit b i v = .ok (withBit b i.toNat v) :=
  setBit_of_le h b v

theorem getBit_eq_getLsbD {i : Byte} (h : i.toNat ≤ 7) (b : Byte) : getBit b i = .ok (b.getLsbD i.toNat) := by
  rw [getBit_of_le h, decide_shiftRight_and_one]

/-- Setting a bit to what it is changes nothing. -/
theorem withBit_of_getLsbD_eq {b : Byte} {n : Nat} {v : Bool} (hn : n < 8) (h : b.getLsbD n = v) :
    withBit b n v = b := by
  apply BitVec.eq_of_getLsbD_eq
  intro j hj
  rw [withBit_getLsbD b v hn hj]
  split
  case isTrue hjn => rw [hjn, h]
  case isFalse => rfl

theorem withBit_getLsbD_same (b : Byte) {n : Nat} (v : Bool) (hn : n < 8) : (withBit b n v).getLsbD n = v := by
  rw [withBit_getLsbD b v hn hn, if_pos rfl]

/-! ### `SETBIT` and `GETBIT` -/

/-- Settles O29: inside the byte the result is the byte with that bit, which is read off bit by bit. -/
theorem setbitChangesExactlyTheIndexedBit : Obligations.SetbitChangesExactlyTheIndexedBit := by
  unfold Obligations.SetbitChangesExactlyTheIndexedBit
  intro byte index value s
  refine ⟨fun h => ⟨withBit byte index.toNat value, ?answers, fun j hj => ?bits⟩, fun h => ?fails⟩
  case answers => exact congrArg (fun r => finish (.setbit <$> r) s) (setBit_eq_withBit h byte value)
  case bits => exact withBit_getLsbD byte value (by omega) hj
  case fails => exact congrArg (fun r => finish (.setbit <$> r) s) (setBit_of_gt h byte value)

/-- Settles O30: `get_bit` is the bit, and the operation delivers it or the failure. -/
theorem getbitReturnsTheIndexedBit : Obligations.GetbitReturnsTheIndexedBit := by
  unfold Obligations.GetbitReturnsTheIndexedBit
  intro byte index s
  refine ⟨fun h => ?answers, fun h => ?fails⟩
  case answers => exact congrArg (fun r => finish (.getbit <$> r) s) (getBit_eq_getLsbD h byte)
  case fails => exact congrArg (fun r => finish (.getbit <$> r) s) (getBit_of_gt h byte)

/-- Settles O31: all four are statements about the bits of the byte with one bit set. -/
theorem bitOperationsRoundTrip : Obligations.BitOperationsRoundTrip := by
  unfold Obligations.BitOperationsRoundTrip
  intro b i v hi
  have hi8 : i.toNat < 8 := by omega
  simp only [setBit_eq_withBit hi, getBit_eq_getLsbD hi, op_ok_bind, Except.ok.injEq]
  refine ⟨withBit_getLsbD_same b v hi8, fun j hj hne => ?others, withBit_of_getLsbD_eq hi8 rfl, ?twice⟩
  case others =>
    have hne' : j.toNat ≠ i.toNat := fun h => hne (BitVec.eq_of_toNat_eq h)
    rw [getBit_eq_getLsbD hj, getBit_eq_getLsbD hj, withBit_getLsbD b v hi8 (by omega), if_neg hne']
  case twice => exact withBit_of_getLsbD_eq hi8 (withBit_getLsbD_same b v hi8)

/-! ### The info byte as a number -/

/-- A byte is the weighted sum of its low five bits and its three flags. -/
theorem toNat_eq_info_add_flags (b : Byte) :
    b.toNat = b.toNat % 32 + 32 * (b.getLsbD 5).toNat + 64 * (b.getLsbD 6).toNat + 128 * (b.getLsbD 7).toNat := by
  have hlt := b.isLt
  simp only [BitVec.getLsbD, Nat.toNat_testBit]
  omega

theorem infoEnc_setWidth (hdp wfa ros : Bool) (info : Byte) :
    (infoEnc hdp wfa ros info).setWidth 5 = info.setWidth 5 := by
  apply BitVec.eq_of_getLsbD_eq
  intro j hj
  rw [BitVec.getLsbD_setWidth, BitVec.getLsbD_setWidth, infoEnc_getLsbD_of_lt _ _ _ _ hj]

theorem infoDec_info (b : Byte) : (infoDec b).info = b.setWidth 5 := by
  apply BitVec.eq_of_getLsbD_eq
  intro j hj
  rw [infoDec_info_getLsbD hj, BitVec.getLsbD_setWidth, decide_eq_true hj, Bool.true_and]

theorem infoDec_eq (b : Byte) : infoDec b = ⟨b.getLsbD 5, b.getLsbD 6, b.getLsbD 7, b.setWidth 5⟩ := by
  rw [← infoDec_info, ← infoDec_highDataPriority, ← infoDec_waitForAnswer, ← infoDec_readOrSend]

theorem infoEnc_toNat (hdp wfa ros : Bool) (info : Byte) :
    (infoEnc hdp wfa ros info).toNat = info.toNat % 32 + 32 * hdp.toNat + 64 * wfa.toNat + 128 * ros.toNat := by
  have hlow : (infoEnc hdp wfa ros info).toNat % 32 = info.toNat % 32 :=
    congrArg BitVec.toNat (infoEnc_setWidth hdp wfa ros info)
  rw [toNat_eq_info_add_flags, hlow, infoEnc_getLsbD_five, infoEnc_getLsbD_six, infoEnc_getLsbD_seven]

/-- Settles O32: the encoded byte as a number. -/
theorem infoencPacksTheInfoSection : Obligations.InfoencPacksTheInfoSection := by
  unfold Obligations.InfoencPacksTheInfoSection
  intro hdp wfa ros info s
  exact ⟨infoEnc hdp wfa ros info, rfl, infoEnc_toNat hdp wfa ros info⟩

/-- Settles O33: the byte is the weighted sum of the fields it is decoded to. -/
theorem infodecUnpacksTheInfoByte : Obligations.InfodecUnpacksTheInfoByte := by
  unfold Obligations.InfodecUnpacksTheInfoByte
  intro byte s
  refine ⟨infoDec byte, rfl, ?_⟩
  rw [infoDec_eq]
  exact toNat_eq_info_add_flags byte

/-! ### The round trip of the info byte -/

/-- Decoding gives the flags and the low five bits of the info operand back. -/
theorem infoDec_infoEnc (hdp wfa ros : Bool) (info : Byte) :
    infoDec (infoEnc hdp wfa ros info) = ⟨hdp, wfa, ros, info.setWidth 5⟩ := by
  rw [infoDec_eq, infoEnc_getLsbD_five, infoEnc_getLsbD_six, infoEnc_getLsbD_seven, infoEnc_setWidth]

/-- The byte of an info section. -/
def infoSectionByte (x : InfoSection) : Byte :=
  infoEnc x.highDataPriority x.waitForAnswer x.readOrSend (x.info.setWidth 8)

theorem infoDec_infoSectionByte (x : InfoSection) : infoDec (infoSectionByte x) = x := by
  rw [infoSectionByte, infoDec_infoEnc, BitVec.setWidth_setWidth_of_le _ (by decide), BitVec.setWidth_eq]

/-- Settles O35: the byte of an info section is the two-sided inverse of `info_dec`. -/
theorem infoByteRoundTrips : Obligations.InfoByteRoundTrips := by
  unfold Obligations.InfoByteRoundTrips
  refine ⟨fun hdp wfa ros v => infoDec_infoSectionByte ⟨hdp, wfa, ros, v⟩, ?_⟩
  exact Function.bijective_iff_has_inverse.mpr ⟨infoSectionByte, infoEnc_infoDec, infoDec_infoSectionByte⟩

/-! ### The info byte by bit operations -/

/-- Setting the three flags of the masked info value is `info_enc`, bit by bit. -/
theorem withBit_flags_eq_infoEnc (hdp wfa ros : Bool) (v : Byte) :
    withBit (withBit (withBit (v &&& 0x1F#8) 5 hdp) 6 wfa) 7 ros = infoEnc hdp wfa ros v := by
  apply BitVec.eq_of_getLsbD_eq
  intro j hj
  rw [withBit_getLsbD _ _ (by decide) hj, withBit_getLsbD _ _ (by decide) hj, withBit_getLsbD _ _ (by decide) hj,
    BitVec.getLsbD_and, infoMask_getLsbD, infoEnc_getLsbD]
  interval_cases j <;> simp

/-- Settles O36: at the constant indices the bit functions are total, and agree with the info byte's. -/
theorem infoByteIsBitOperations : Obligations.InfoByteIsBitOperations := by
  unfold Obligations.InfoByteIsBitOperations
  refine ⟨fun hdp wfa ros v => ?_, fun b => ⟨rfl, rfl, rfl⟩⟩
  rw [setBit_eq_withBit (by decide), op_ok_bind, setBit_eq_withBit (by decide), op_ok_bind,
    setBit_eq_withBit (by decide)]
  exact congrArg Except.ok (withBit_flags_eq_infoEnc hdp wfa ros v)

end Sys2Proof.Machine
end

section
/-! The checksum (`42_checksum.md` R120 to R122): it is the negation of the sum of the bytes, in eight bits. -/

namespace Sys2Proof.Machine

open Sys2Proof.Spec

@[simp] theorem byteSum_cons (b : Byte) (bs : Memory) : byteSum (b :: bs) = b.toNat + byteSum bs := by
  simp [byteSum]

theorem sumBytes_eq_byteSum (bs : Memory) : sumBytes bs = byteSum bs := by
  induction bs with
  | nil => rfl
  | cons b bs ih => rw [sumBytes, ih, byteSum_cons]

/-- Complementing and adding one is negation modulo 256. -/
theorem negateSum_eq_neg (sum : Nat) : negateSum sum = -BitVec.ofNat 8 sum := by
  have hmask : BitVec.ofNat 8 0xFF = BitVec.allOnes 8 := rfl
  rw [negateSum, BitVec.ofNat_and, BitVec.ofNat_add, BitVec.ofNat_xor, hmask, BitVec.and_allOnes, BitVec.xor_allOnes,
    BitVec.neg_eq_not_add]

theorem negateSum_inj {m n : Nat} : negateSum m = negateSum n ↔ m % 256 = n % 256 := by
  rw [negateSum_eq_neg, negateSum_eq_neg, BitVec.neg_inj, ← BitVec.toNat_inj, BitVec.toNat_ofNat, BitVec.toNat_ofNat]

theorem negateSum_toNat (sum : Nat) : (negateSum sum).toNat = (256 - sum % 256) % 256 := by
  rw [negateSum_eq_neg, BitVec.toNat_neg, BitVec.toNat_ofNat]

/-- What was negated and the negation add to 0. -/
theorem add_negateSum_mod (sum : Nat) : (sum + (negateSum sum).toNat) % 256 = 0 := by
  rw [negateSum_toNat]
  omega

theorem checksum_eq {buf : Memory} {n : Nat} (h : n ≤ buf.length) :
    checksum buf n = .ok (negateSum (byteSum (buf.take n))) := by
  rw [checksum_of_le h, sumBytes_eq_byteSum]

/-- Settles O37: the checksum of the whole buffer is the negated sum. -/
theorem cksumReturnsTheNegatedSum : Obligations.CksumReturnsTheNegatedSum := by
  unfold Obligations.CksumReturnsTheNegatedSum
  intro s
  have hck : checksum s.ibuf s.ilen = .ok (negateSum (byteSum s.ibuf)) := by
    rw [State.ilen, checksum_eq (Nat.le_refl _), List.take_length]
  exact ⟨_, congrArg (fun r => finish (.cksum <$> r) s) hck, negateSum_toNat _⟩

/-- Appending the checksum makes the sum 0 modulo 256, whose checksum is 0. -/
theorem checksum_append_self (bs : Memory) :
    checksum (bs ++ [negateSum (byteSum bs)]) (bs.length + 1) = .ok 0 := by
  have hlen : bs.length + 1 = (bs ++ [negateSum (byteSum bs)]).length := by simp
  have hsum : sumBytes (bs ++ [negateSum (byteSum bs)]) = byteSum bs + (negateSum (byteSum bs)).toNat := by
    rw [sumBytes_append, sumBytes_eq_byteSum]
    simp [sumBytes]
  have hzero : negateSum (byteSum bs + (negateSum (byteSum bs)).toNat) = negateSum 0 :=
    negateSum_inj.mpr (add_negateSum_mod _)
  rw [hlen, checksum_of_le (Nat.le_refl _), List.take_length, hsum, hzero]
  rfl

/-- Settles O38: all three are properties of negation modulo 256. -/
theorem checksumIsSelfConsistent : Obligations.ChecksumIsSelfConsistent := by
  unfold Obligations.ChecksumIsSelfConsistent
  refine ⟨fun buf n hn => ⟨_, checksum_eq hn, add_negateSum_mod _, ?appended⟩, fun buf buf' n n' hn hn' => ?equal⟩
  case appended =>
    have happend := checksum_append_self (buf.take n)
    rwa [List.length_take_of_le hn] at happend
  case equal => rw [checksum_eq hn, checksum_eq hn', Except.ok.injEq, negateSum_inj]

end Sys2Proof.Machine
end

section
/-! The CRC of a buffer, and the changes it sees (`43_crc32.md` R131, R132). Every shift can be undone, because the
polynomial puts the bit that was shifted out into bit 31; so the register after a window of at most 32 bits still tells
which bits they were. -/

namespace Sys2Proof.Machine

open Sys2Proof.Spec

/-- Settles O39: the byte form on the whole buffer is the bit form. -/
theorem crc32ReturnsTheCrcOfTheBuffer : Obligations.Crc32ReturnsTheCrcOfTheBuffer := by
  unfold Obligations.Crc32ReturnsTheCrcOfTheBuffer
  intro s
  have hcrc : crc32 s.ibuf s.ilen = .ok (bitSerialCrc s.ibuf) := by
    rw [State.ilen, crcByteFormEqualsBitForm _ _ (Nat.le_refl _), List.take_length]
  exact congrArg (fun r => finish (.crc32 <$> r) s) hcrc

/-! ### Undoing a shift -/

/-- Bit 31 after a shift is the bit that was shifted out. -/
theorem crcShift_getLsbD_31 (crc : Word) : (crcShift crc).getLsbD 31 = crc.getLsbD 0 := by
  have htop : (crc >>> 1).getLsbD 31 = false := by simp
  have hpoly : Config.crcPoly.getLsbD 31 = true := by decide
  simp only [crcShift, and_one_eq_one_iff]
  split
  case isTrue hlow => rw [BitVec.getLsbD_xor, htop, hpoly, hlow, Bool.false_xor]
  case isFalse hlow => rw [htop, Bool.eq_false_iff.mpr hlow]

theorem eq_of_bit0_of_shiftRight {x y : Word} (h0 : x.getLsbD 0 = y.getLsbD 0) (h : x >>> 1 = y >>> 1) : x = y := by
  apply BitVec.eq_of_getLsbD_eq
  intro j _
  cases j with
  | zero => exact h0
  | succ j =>
    have hbit := congrArg (·.getLsbD j) h
    simpa only [BitVec.getLsbD_ushiftRight, Nat.add_comm 1] using hbit

theorem crcShift_injective : Function.Injective crcShift := by
  intro x y h
  have h0 : x.getLsbD 0 = y.getLsbD 0 := by rw [← crcShift_getLsbD_31, h, crcShift_getLsbD_31]
  refine eq_of_bit0_of_shiftRight h0 ?_
  simp only [crcShift, and_one_eq_one_iff, h0] at h
  split at h
  · exact (BitVec.xor_left_inj _).mp h
  · exact h

theorem crcShifts_injective (k : Nat) : Function.Injective (crcShifts k) := by
  induction k with
  | zero => exact fun _ _ h => h
  | succ k ih => exact fun _ _ h => crcShift_injective (ih h)

/-! ### Reading the bits of a window off the register -/

/-- The bits as a word, the first in bit 0. -/
def wordOfBits (w : List Bool) : Word :=
  (BitVec.ofBoolListLE w).setWidth 32

theorem wordOfBits_getLsbD (w : List Bool) {j : Nat} (h : j < 32) : (wordOfBits w).getLsbD j = w.getD j false := by
  rw [wordOfBits, BitVec.getLsbD_setWidth, BitVec.getLsbD_ofBoolListLE, decide_eq_true h, Bool.true_and]

theorem wordOfBits_cons_shiftRight (b : Bool) {w : List Bool} (h : w.length < 32) :
    wordOfBits (b :: w) >>> 1 = wordOfBits w := by
  apply BitVec.eq_of_getLsbD_eq
  intro j hj
  rw [BitVec.getLsbD_ushiftRight, wordOfBits_getLsbD w hj, Nat.add_comm]
  rcases Nat.lt_or_ge (j + 1) 32 with hlt | hge
  · rw [wordOfBits_getLsbD _ hlt, List.getD_cons_succ]
  · have hpast : w.length ≤ j := by omega
    rw [BitVec.getLsbD_of_ge _ _ hge, List.getD_eq_default _ _ hpast]

/-- Taking at most 32 bits one at a time is adding them all at once and then shifting: each shift brings the next bit to
bit 0, and nothing is left at the end. -/
theorem foldl_crcBit_eq_crcShifts (crc : Word) {w : List Bool} (h : w.length ≤ 32) :
    w.foldl crcBit crc = crcShifts w.length (crc ^^^ wordOfBits w) := by
  induction w generalizing crc with
  | nil =>
    have hzero : wordOfBits [] = 0#32 := rfl
    rw [hzero, BitVec.xor_zero]
    rfl
  | cons b w ih =>
    rw [List.foldl_cons, ih _ (Nat.le_of_succ_le h), List.length_cons, crcShifts, crcShift_xor,
      wordOfBits_getLsbD _ (by decide), wordOfBits_cons_shiftRight b h]
    rfl

theorem eq_of_wordOfBits_eq {w w' : List Bool} (hlen : w.length = w'.length) (h32 : w.length ≤ 32)
    (h : wordOfBits w = wordOfBits w') : w = w' := by
  refine List.ext_getElem hlen fun j hj hj' => ?_
  have hbit := congrArg (·.getLsbD j) h
  simpa only [wordOfBits_getLsbD _ (hj.trans_le h32), List.getD_eq_getElem, hj, hj'] using hbit

/-- The bits before a window can be undone. -/
theorem foldl_crcBit_injective (bits : List Bool) : Function.Injective (bits.foldl crcBit) := by
  induction bits with
  | nil => exact fun _ _ h => h
  | cons b bits ih =>
    intro x y h
    have hone : [b].length ≤ 32 := Nat.le_of_ble_eq_true rfl
    have hstep : [b].foldl crcBit x = [b].foldl crcBit y := ih h
    rw [foldl_crcBit_eq_crcShifts x hone, foldl_crcBit_eq_crcShifts y hone] at hstep
    exact (BitVec.xor_left_inj _).mp (crcShifts_injective _ hstep)

/-- Two bit sequences with the same register that differ inside a window of at most 32 bits only are the same. -/
theorem window_eq_of_foldl_crcBit_eq {crc : Word} {before w w' after : List Bool} (hlen : w.length = w'.length)
    (h32 : w.length ≤ 32)
    (h : (before ++ w ++ after).foldl crcBit crc = (before ++ w' ++ after).foldl crcBit crc) : w = w' := by
  simp only [List.foldl_append] at h
  have hwindow := foldl_crcBit_injective after h
  rw [foldl_crcBit_eq_crcShifts (w := w) _ h32, foldl_crcBit_eq_crcShifts (w := w') _ (hlen ▸ h32), ← hlen] at hwindow
  exact eq_of_wordOfBits_eq hlen h32 ((BitVec.xor_right_inj _).mp (crcShifts_injective _ hwindow))

/-! ### The bits of a buffer -/

theorem byteBits_injective {b b' : Byte} (h : (List.range 8).map b.getLsbD = (List.range 8).map b'.getLsbD) : b = b' :=
  BitVec.eq_of_getLsbD_eq fun j hj => List.map_inj_left.mp h j (List.mem_range.mpr hj)

theorem crcBits_length (bs : Memory) : (crcBits bs).length = 8 * bs.length := by
  induction bs with
  | nil => rfl
  | cons b bs ih =>
    rw [crcBits_cons, List.length_append, ih, List.length_map, List.length_range, List.length_cons]
    omega

theorem crcBits_append (xs ys : Memory) : crcBits (xs ++ ys) = crcBits xs ++ crcBits ys :=
  List.flatMap_append ..

theorem crcBits_injective {buf buf' : Memory} (h : crcBits buf = crcBits buf') : buf = buf' := by
  induction buf generalizing buf' with
  | nil =>
    have hlen := congrArg List.length h
    rw [crcBits_length, crcBits_length, List.length_nil] at hlen
    exact (List.eq_nil_of_length_eq_zero (by omega)).symm
  | cons b bs ih =>
    cases buf' with
    | nil => cases h
    | cons b' bs' =>
      rw [crcBits_cons, crcBits_cons] at h
      obtain ⟨hbyte, hrest⟩ := List.append_inj h (by simp)
      rw [byteBits_injective hbyte, ih hrest]

/-- Cut at the window: what is before it and what is after it is the same. -/
theorem eq_of_agree_outside_window {crc : Word} {l l' : List Bool} {k : Nat} (hlen : l.length = l'.length)
    (hagree : ∀ j, j < k ∨ k + 32 ≤ j → l[j]? = l'[j]?) (h : l.foldl crcBit crc = l'.foldl crcBit crc) : l = l' := by
  have hbefore : l.take k = l'.take k := by
    apply List.ext_getElem?
    intro j
    simp only [List.getElem?_take]
    split
    case isTrue hj => exact hagree j (.inl hj)
    case isFalse => rfl
  have hafter : l.drop (k + 32) = l'.drop (k + 32) := by
    apply List.ext_getElem?
    intro j
    rw [List.getElem?_drop, List.getElem?_drop, hagree _ (.inr (by omega))]
  have hcut : ∀ m : List Bool, m = m.take k ++ (m.drop k).take 32 ++ m.drop (k + 32) := by
    intro m
    rw [List.append_assoc, ← List.drop_drop, List.take_append_drop, List.take_append_drop]
  rw [hcut l, hcut l', hbefore, hafter] at h ⊢
  rw [window_eq_of_foldl_crcBit_eq (by simp [hlen]) (List.length_take_le ..) h]

theorem crc32_length_eq (buf : Memory) :
    crc32 buf buf.length = .ok ((crcBits buf).foldl crcBit 0xFFFFFFFF#32 ^^^ 0xFFFFFFFF#32) := by
  rw [crcByteFormEqualsBitForm _ _ (Nat.le_refl _), List.take_length, bitSerialCrc]

/-- Settles O41: equal CRCs would make the bits inside the window equal, and with them the buffers. -/
theorem crcDetectsEveryChangeWithin32Bits : Obligations.CrcDetectsEveryChangeWithin32Bits := by
  unfold Obligations.CrcDetectsEveryChangeWithin32Bits
  intro buf buf' k hlen hne hagree heq
  rw [crc32_length_eq, crc32_length_eq, Except.ok.injEq, BitVec.xor_left_inj] at heq
  exact hne (crcBits_injective (eq_of_agree_outside_window (by simp [crcBits_length, hlen]) hagree heq))

end Sys2Proof.Machine
end

section
/-! The packets of the encoder (`30_encoding.md` R60, R61; `44_encoder.md` R140 to R145): which bytes they are, and that
the fields at their offsets determine them. -/

namespace Sys2Proof.Machine

open Sys2Proof.Spec

/-! ### The packets -/

/-- Everything of a secure packet that stands before its CRC: the header, its checksum and the content. -/
def secureBody (hdp wfa ros : Bool) (info dev : Byte) (pn : Word) (content : Memory) : Memory :=
  secureHeaderBytes hdp wfa ros info dev pn content.length ++
    [negateSum (sumBytes (secureHeaderBytes hdp wfa ros info dev pn content.length))] ++ content

/-- The packet of `ENC.S`. -/
def securePacket (hdp wfa ros : Bool) (info dev : Byte) (pn : Word) (content : Memory) : Memory :=
  secureBody hdp wfa ros info dev pn content ++
    beBytes 4 (bitSerialCrc (secureBody hdp wfa ros info dev pn content)).toNat ++ [0xFE#8]

/-- The packet of `ENC.P`. -/
def plainPacket (hdp wfa ros : Bool) (info : Byte) (pn : Word) (content : Memory) : Memory :=
  beBytes 4 pn.toNat ++ [infoEnc hdp wfa ros info] ++ content

theorem encodeSecure_eq_securePacket {content : Memory} (h : content.length ≤ 65535) (hdp wfa ros : Bool)
    (info dev : Byte) (pn : Word) :
    encodeSecure hdp wfa ros info dev pn content = .ok (securePacket hdp wfa ros info dev pn content) := by
  rw [encodeSecure_of_le h, securePacket, ← crcBytes_xorOut_eq_bitSerialCrc]
  rfl

/-- The state after an encode that succeeded: `SEQ` is one higher exactly when the number was omitted. -/
theorem finishEncode_ok_eq (pn : Option Word) (p : Memory) (s : State) :
    finishEncode pn (.ok p) s =
      .next { s with rsp := some (.packet p), seq := if pn.isSome then s.seq else s.seq + 1 } := by
  rw [finishEncode_ok, advanceSeq_eq]
  cases pn <;> rfl

section
variable (hdp wfa ros : Bool) (info dev : Byte) (pn : Option Word) {s t : State} {p : Memory}

theorem exec_encS (h : s.ibuf.length ≤ 65535) :
    exec (.encS hdp wfa ros info dev pn) s = .next { s with
      rsp := some (.packet (securePacket hdp wfa ros info dev (pn.getD s.seq) s.ibuf)),
      seq := if pn.isSome then s.seq else s.seq + 1 } := by
  rw [exec, execEncS, encodeSecure_eq_securePacket h, finishEncode_ok_eq, packetNumber_eq_getD]

theorem exec_encP (h : s.ibuf.length ≤ 65535) :
    exec (.encP hdp wfa ros info pn) s = .next { s with
      rsp := some (.packet (plainPacket hdp wfa ros info (pn.getD s.seq) s.ibuf)),
      seq := if pn.isSome then s.seq else s.seq + 1 } := by
  rw [exec, execEncP, encodePlain_of_le h, finishEncode_ok_eq, packetNumber_eq_getD]
  rfl

variable {hdp wfa ros info dev pn}

/-- A delivered packet is the secure packet of the operands, and its content was not too long. -/
theorem securePacket_of_exec (hexec : exec (.encS hdp wfa ros info dev pn) s = .next t)
    (hrsp : t.rsp = some (.packet p)) :
    s.ibuf.length ≤ 65535 ∧ p = securePacket hdp wfa ros info dev (pn.getD s.seq) s.ibuf := by
  have hok := eq_ok_of_finishEncode_packet hexec hrsp
  obtain ⟨hlen, -⟩ := encodeSecure_ok_length hok
  rw [encodeSecure_eq_securePacket hlen, packetNumber_eq_getD] at hok
  exact ⟨hlen, (Except.ok.inj hok).symm⟩

theorem plainPacket_of_exec (hexec : exec (.encP hdp wfa ros info pn) s = .next t)
    (hrsp : t.rsp = some (.packet p)) :
    s.ibuf.length ≤ 65535 ∧ p = plainPacket hdp wfa ros info (pn.getD s.seq) s.ibuf := by
  have hok := eq_ok_of_finishEncode_packet hexec hrsp
  obtain ⟨hlen, -⟩ := encodePlain_ok_length hok
  rw [encodePlain_of_le hlen, packetNumber_eq_getD] at hok
  exact ⟨hlen, (Except.ok.inj hok).symm⟩

end

/-! ### The secure layout -/

/-- The packet has the secure layout (R60) with these fields: each at its offset, and the checksum and the CRC are those
of the bytes before them. -/
structure SecureLayout (ib dev : Byte) (pn : Word) (content p : Memory) : Prop where
  length : p.length = 17 + content.length
  startByte : p[0]? = some 0xFF#8
  totalDataLen : memRead p 1 2 = .ok ((17 + content.length) % 65536)
  deviceID : p[3]? = some dev
  packetNumber : memRead p 4 4 = .ok pn.toNat
  infoByte : p[8]? = some ib
  contentSize : memRead p 9 2 = .ok content.length
  headerChecksum : p[11]? = some (negateSum (sumBytes (p.take 11)))
  contentBytes : readRange p 12 content.length = .ok content
  crc : memRead p (12 + content.length) 4 = .ok (bitSerialCrc (p.take (12 + content.length))).toNat
  stopByte : p[16 + content.length]? = some 0xFE#8

section
variable (hdp wfa ros : Bool) (info dev : Byte) (pn : Word) (content : Memory)

theorem secureBody_length : (secureBody hdp wfa ros info dev pn content).length = 12 + content.length := by
  simp only [secureBody, List.length_append, secureHeaderBytes_length, List.length_cons, List.length_nil]

theorem securePacket_take_body :
    (securePacket hdp wfa ros info dev pn content).take (12 + content.length) =
      secureBody hdp wfa ros info dev pn content := by
  rw [securePacket, List.append_assoc, ← secureBody_length hdp wfa ros info dev pn content, List.take_left]

theorem securePacket_length :
    (securePacket hdp wfa ros info dev pn content).length = 17 + content.length := by
  simp only [securePacket, List.length_append, secureBody_length, beBytes_length, List.length_cons, List.length_nil]
  omega

theorem securePacket_readRange_content :
    readRange (securePacket hdp wfa ros info dev pn content) 12 content.length = .ok content := by
  have hle : 12 + content.length ≤ (securePacket hdp wfa ros info dev pn content).length := by
    rw [securePacket_length]
    omega
  have hdrop : (securePacket hdp wfa ros info dev pn content).drop 12 =
    content ++ beBytes 4 (bitSerialCrc (secureBody hdp wfa ros info dev pn content)).toNat ++ [0xFE#8] := rfl
  rw [readRange_of_le hle, hdrop, List.append_assoc, List.take_left]

theorem securePacket_memRead_crc :
    memRead (securePacket hdp wfa ros info dev pn content) (12 + content.length) 4 =
      .ok (bitSerialCrc (secureBody hdp wfa ros info dev pn content)).toNat := by
  have hlt := (bitSerialCrc (secureBody hdp wfa ros info dev pn content)).isLt
  rw [← Nat.mod_eq_of_lt hlt, ← secureBody_length hdp wfa ros info dev pn content]
  exact memRead_of_bytes fun k hk => getElem?_append_beBytes _ _ _ hk

theorem securePacket_stopByte :
    (securePacket hdp wfa ros info dev pn content)[16 + content.length]? = some 0xFE#8 := by
  have hlen : (secureBody hdp wfa ros info dev pn content ++
      beBytes 4 (bitSerialCrc (secureBody hdp wfa ros info dev pn content)).toNat).length = 16 + content.length := by
    rw [List.length_append, secureBody_length, beBytes_length]
    omega
  rw [securePacket, ← hlen, List.getElem?_concat_length]

/-- The header has fixed bytes, so each of its fields is found by reading the packet at constant offsets. -/
theorem securePacket_layout {content : Memory} (h : content.length ≤ 65535) :
    SecureLayout (infoEnc hdp wfa ros info) dev pn content (securePacket hdp wfa ros info dev pn content) where
  length := securePacket_length ..
  startByte := rfl
  totalDataLen := memRead_of_bytes fun k hk => by interval_cases k <;> rfl
  deviceID := rfl
  packetNumber := by
    have hread : memRead (securePacket hdp wfa ros info dev pn content) 4 4 = .ok (pn.toNat % 2 ^ 32) :=
      memRead_of_bytes fun k hk => by interval_cases k <;> rfl
    rwa [Nat.mod_eq_of_lt pn.isLt] at hread
  infoByte := rfl
  contentSize := by
    have hread : memRead (securePacket hdp wfa ros info dev pn content) 9 2 = .ok (content.length % 2 ^ 16) :=
      memRead_of_bytes fun k hk => by interval_cases k <;> rfl
    rwa [Nat.mod_eq_of_lt (by omega)] at hread
  headerChecksum := rfl
  contentBytes := securePacket_readRange_content ..
  crc := by rw [securePacket_take_body, securePacket_memRead_crc]
  stopByte := securePacket_stopByte ..

end

/-! ### What the layout says in the spec's terms -/

section
variable {ib dev : Byte} {pn : Word} {content p : Memory}

theorem SecureLayout.content_length_le (h : SecureLayout ib dev pn content p) : content.length ≤ 65535 := by
  have hlt : content.length < 65536 := memRead_lt h.contentSize
  omega

theorem SecureLayout.be16_totalDataLen (h : SecureLayout ib dev pn content p) :
    be16 p 1 = .ok (BitVec.ofNat 16 (17 + content.length)) :=
  be16_eq_ok_iff.mpr h.totalDataLen

theorem SecureLayout.be32_packetNumber (h : SecureLayout ib dev pn content p) : be32 p 4 = .ok pn :=
  be32_eq_ok_iff.mpr h.packetNumber

theorem SecureLayout.passes_checksum (h : SecureLayout ib dev pn content p) : checksumPasses p := by
  have hlen := h.length
  exact ⟨_, checksum_of_le (by omega), h.headerChecksum⟩

theorem SecureLayout.crc_eq (h : SecureLayout ib dev pn content p) :
    crc32 p (p.length - 5) = .ok (bitSerialCrc (p.take (12 + content.length))) ∧
      be32 p (12 + content.length) = .ok (bitSerialCrc (p.take (12 + content.length))) := by
  have hlen : p.length - 5 = 12 + content.length := by
    have := h.length
    omega
  refine ⟨?_, be32_eq_ok_iff.mpr h.crc⟩
  rw [hlen]
  exact crcByteFormEqualsBitForm _ _ (by omega)

theorem declaredSize_of_memRead {p : Memory} {n : Nat} (h : memRead p 9 2 = .ok n) : declaredSize p = n := by
  have hlt : n < 65536 := memRead_lt h
  have h9 : p[9]? = some (BitVec.ofNat 8 (n >>> 8)) := getElem?_of_memRead h (k := 0) (by decide)
  have h10 : p[10]? = some (BitVec.ofNat 8 n) := getElem?_of_memRead h (k := 1) (by decide)
  simp only [declaredSize, List.getD_eq_getElem?_getD, h9, h10, Option.getD_some, BitVec.toNat_ofNat,
    Nat.shiftRight_eq_div_pow]
  omega

end

/-! ### The encoder's statements -/

/-- Settles O42: the packet has the secure layout, and the counter is advanced as R141 says. -/
theorem secureEncodeWritesTheSecureLayout : Obligations.SecureEncodeWritesTheSecureLayout := by
  unfold Obligations.SecureEncodeWritesTheSecureLayout
  intro hdp wfa ros info dev pn s hlen
  have h := securePacket_layout hdp wfa ros info dev (pn.getD s.seq) hlen
  obtain ⟨hcrc, hstored⟩ := h.crc_eq
  exact ⟨_, exec_encS hdp wfa ros info dev pn hlen, h.length, h.startByte, h.be16_totalDataLen, h.deviceID,
    h.be32_packetNumber, h.infoByte, h.contentSize, h.passes_checksum, h.contentBytes, ⟨_, hcrc, hstored⟩, h.stopByte⟩

theorem plainPacket_be32_packetNumber (hdp wfa ros : Bool) (info : Byte) (pn : Word) (content : Memory) :
    be32 (plainPacket hdp wfa ros info pn content) 0 = .ok pn := by
  have hread : memRead (plainPacket hdp wfa ros info pn content) 0 4 = .ok (pn.toNat % 2 ^ 32) :=
    memRead_of_bytes fun k hk => by interval_cases k <;> rfl
  rw [Nat.mod_eq_of_lt pn.isLt] at hread
  exact be32_eq_ok_iff.mpr hread

theorem plainPacket_length (hdp wfa ros : Bool) (info : Byte) (pn : Word) (content : Memory) :
    (plainPacket hdp wfa ros info pn content).length = 5 + content.length := by
  simp only [plainPacket, List.length_append, beBytes_length, List.length_cons, List.length_nil]

theorem plainPacket_readRange_content (hdp wfa ros : Bool) (info : Byte) (pn : Word) (content : Memory) :
    readRange (plainPacket hdp wfa ros info pn content) 5 content.length = .ok content := by
  have hdrop : (plainPacket hdp wfa ros info pn content).drop 5 = content := rfl
  rw [readRange_of_le (plainPacket_length ..).ge, hdrop, List.take_length]

/-- Settles O43: the three fields of the plain packet. -/
theorem plainEncodeWritesThePlainLayout : Obligations.PlainEncodeWritesThePlainLayout := by
  unfold Obligations.PlainEncodeWritesThePlainLayout
  intro hdp wfa ros info pn s hlen
  exact ⟨_, exec_encP hdp wfa ros info pn hlen, plainPacket_length .., plainPacket_be32_packetNumber .., rfl,
    plainPacket_readRange_content ..⟩

/-- Settles O46: the field holds the length modulo 65536, and the length is below 131072. -/
theorem totalDataLenIsExactWhereItFits : Obligations.TotalDataLenIsExactWhereItFits := by
  unfold Obligations.TotalDataLenIsExactWhereItFits
  intro hdp wfa ros info dev pn s t p hexec hrsp
  obtain ⟨hlen, rfl⟩ := securePacket_of_exec hexec hrsp
  have h := securePacket_layout hdp wfa ros info dev (pn.getD s.seq) hlen
  rw [h.totalDataLen, h.length]
  refine ⟨fun hfits => congrArg Except.ok ?_, fun hover => congrArg Except.ok ?_⟩ <;> omega

/-- Settles O47: the second encode finds the counter as the first one left it, whatever their modes. -/
theorem modesShareOneCounter : Obligations.ModesShareOneCounter := by
  unfold Obligations.ModesShareOneCounter
  intro hdp wfa ros hdp' wfa' ros' info dev info' s c hlen hc
  have htwo : s.seq + 1 + 1 = s.seq + 2 := BitVec.add_assoc ..
  refine ⟨⟨_, _, _, _, exec_encS hdp wfa ros info dev none hlen, rfl, exec_encP hdp' wfa' ros' info' none hc, rfl,
    ?_, plainPacket_be32_packetNumber .., htwo⟩, ⟨_, _, _, _, exec_encP hdp' wfa' ros' info' none hlen, rfl,
    exec_encS hdp wfa ros info dev none hc, rfl, plainPacket_be32_packetNumber .., ?_, htwo⟩⟩
  · exact (securePacket_layout hdp wfa ros info dev s.seq hlen).be32_packetNumber
  · exact (securePacket_layout hdp wfa ros info dev (s.seq + 1) hc).be32_packetNumber

end Sys2Proof.Machine
end

section
/-! What the decoders deliver and accept (`45_decoder.md` R160 to R165, R176, R180, R181). -/

namespace Sys2Proof.Machine

open Sys2Proof.Spec

/-! ### `DEC.S` -/

/-- A decoder's frame response is the frame its pseudocode built. -/
theorem finish_frame_eq_respond_iff {r : Op Frame} {s : State} {f : Frame} :
    finish (.frame <$> r) s = .next (respond (.frame f) s) ↔ r = .ok f :=
  ⟨fun h => eq_ok_of_finish_frame h rfl, fun h => by rw [h, op_map_ok, finish_ok]⟩

theorem decS_answers_iff {s : State} {f : Frame} : answers .decS s (.frame f) ↔ decodeSecure s.ibuf = .ok f :=
  finish_frame_eq_respond_iff

theorem decP_answers_iff {s : State} {f : Frame} : answers .decP s (.frame f) ↔ decodePlain s.ibuf = .ok f :=
  finish_frame_eq_respond_iff

/-- The packet passes the five checks of R161. -/
structure Accepted (p : Memory) : Prop where
  length : 17 ≤ p.length
  checksum : checksumPasses p
  size : 17 + declaredSize p ≤ p.length
  crc : crcPasses p
  markers : markersPass p

theorem decodeSecure_of_accepted {p : Memory} (h : Accepted p) : ∃ f, decodeSecure p = .ok f := by
  obtain ⟨-, -, accepted⟩ := decodeSecure_of_declaredSize_le h.length h.checksum h.size
  exact accepted h.crc h.markers

/-- A packet that is decoded has none of the causes of a failure. -/
theorem accepted_of_decodeSecure {p : Memory} {f : Frame} (h : decodeSecure p = .ok f) : Accepted p := by
  have nocause : ∀ g, ¬ secureFailureCause p g := fun g hg =>
    ok_ne_raise g f (h.symm.trans (decodeSecure_of_secureFailureCause hg))
  have hlen : 17 ≤ p.length := not_lt.mp fun hlt => nocause .frameTooShort (.inl hlt)
  have hck : checksumPasses p := not_not.mp fun hck => nocause .checksumMismatch ⟨hlen, hck⟩
  have hsize : 17 + declaredSize p ≤ p.length := not_lt.mp fun hlt => nocause .frameTooShort (.inr ⟨hck, hlt⟩)
  have hcrc : crcPasses p := not_not.mp fun hcrc => nocause .crcMismatch ⟨hlen, hck, hsize, hcrc⟩
  exact ⟨hlen, hck, hsize, hcrc, not_not.mp fun hm => nocause .framingError ⟨hlen, hck, hsize, hcrc, hm⟩⟩

/-- Settles O50: the five checks are what the decoder makes, and it makes no other. -/
theorem secureDecodeAcceptanceSet : Obligations.SecureDecodeAcceptanceSet := by
  unfold Obligations.SecureDecodeAcceptanceSet
  intro s
  simp only [decS_answers_iff]
  refine ⟨fun ⟨f, hf⟩ => ?_, fun ⟨hlen, hck, hsize, hcrc, hm⟩ => decodeSecure_of_accepted ⟨hlen, hck, hsize, hcrc, hm⟩⟩
  obtain ⟨hlen, hck, hsize, hcrc, hm⟩ := accepted_of_decodeSecure hf
  exact ⟨hlen, hck, hsize, hcrc, hm⟩

theorem declaredSize_of_be16 {p : Memory} {cs : Half} (h : be16 p 9 = .ok cs) : declaredSize p = cs.toNat :=
  declaredSize_of_memRead (be16_eq_ok_iff.mp h)

/-- Settles O48: the packet is accepted, and the fields of every delivered frame are known. -/
theorem secureDecodeDeliversTheReceivedFields : Obligations.SecureDecodeDeliversTheReceivedFields := by
  unfold Obligations.SecureDecodeDeliversTheReceivedFields
  intro s hlen hck hsize hcrc hm
  obtain ⟨f, hf⟩ := decodeSecure_of_accepted ⟨hlen, hck, hsize, hcrc, hm⟩
  have hanswers := decS_answers_iff.mpr hf
  obtain ⟨h, hsec, hstart, htotal, hdev, hpn, hinfo, hcs, hhck, hcontent, hstored, hstop⟩ :=
    secureFrameFieldsAreTheReceivedValues s _ f hanswers rfl
  rw [declaredSize_of_be16 hcs]
  exact ⟨f, h, hanswers, hsec, hstart, htotal, hdev, hpn, hinfo, hcs, hhck, hcontent, hstored, hstop⟩

/-! ### `DEC.P` -/

/-- The frame of a plain packet in terms of reads of its fields. -/
theorem decodePlain_eq_ok_iff {p : Memory} {f : Frame} :
    decodePlain p = .ok f ↔ 5 ≤ p.length ∧ p.length ≤ 65540 ∧ be32 p 0 = .ok f.packetNumber ∧
      p[4]?.map infoDec = some f.infoSection ∧ f.content = p.drop 5 ∧ f.secureHeader = none := by
  rcases Nat.lt_or_ge p.length 5 with hshort | hlen
  · simp [decodePlain_of_lt hshort, hshort]
  rcases Nat.lt_or_ge 65540 p.length with hlong | hmax
  · simp [decodePlain_of_gt hlong, hlong]
  · have hpn := be32_of_le (buf := p) (off := 0) (by omega)
    have hinfo : p[4]?.map infoDec = some (infoDec p[4]) := by rw [List.getElem?_eq_getElem, Option.map_some]
    rw [decodePlain_of_le hlen hmax, hpn, hinfo]
    refine ⟨fun h => ?_, fun ⟨_, _, hpn, hinfo, hcontent, hsec⟩ => ?_⟩
    · cases h
      exact ⟨hlen, hmax, rfl, rfl, rfl, rfl⟩
    · obtain ⟨pn, info, content, sec⟩ := f
      cases hpn
      cases hinfo
      cases hcontent
      cases hsec
      rfl

/-- Settles O52: the two limits, and the fields in between. -/
theorem plainDecodeDeliversEveryWellSizedPacket : Obligations.PlainDecodeDeliversEveryWellSizedPacket := by
  unfold Obligations.PlainDecodeDeliversEveryWellSizedPacket
  intro s
  refine ⟨fun h => decP_failsWith_iff.mpr (decodePlain_of_lt h), fun h => decP_failsWith_iff.mpr (decodePlain_of_gt h),
    fun hlen hmax => ?_⟩
  have hok := decodePlain_of_le hlen hmax
  obtain ⟨-, -, hpn, hinfo, hcontent, hsec⟩ := decodePlain_eq_ok_iff.mp hok
  exact ⟨_, decP_answers_iff.mpr hok, hsec, hpn, hinfo, hcontent⟩

end Sys2Proof.Machine
end

section
/-! Encoding and decoding again, in both directions (`44_encoder.md` R147, `45_decoder.md` R182, R229). -/

namespace Sys2Proof.Machine

open Sys2Proof.Spec

/-! ### Decoding an encoded packet -/

section
variable {ib dev : Byte} {pn : Word} {content p : Memory}

theorem SecureLayout.accepted (h : SecureLayout ib dev pn content p) : Accepted p := by
  have hlen := h.length
  have hsize := declaredSize_of_memRead h.contentSize
  obtain ⟨hcrc, hstored⟩ := h.crc_eq
  refine ⟨by omega, h.passes_checksum, by omega, ⟨_, hcrc, ?stored⟩, h.startByte, ?stop⟩
  case stored => rwa [hsize]
  case stop => rw [hsize, h.stopByte]

/-- The fields of a decoded packet, each a read at its offset (R165), without a state around the packet. -/
theorem fields_of_decodeSecure {f : Frame} (hf : decodeSecure p = .ok f) :
    ∃ hdr : SecureHeader, f.secureHeader = some hdr ∧
      p[0]? = some hdr.startByte ∧ be16 p 1 = .ok hdr.totalDataLen ∧ p[3]? = some hdr.deviceID ∧
      be32 p 4 = .ok f.packetNumber ∧ p[8]?.map infoDec = some f.infoSection ∧ be16 p 9 = .ok hdr.contentSize ∧
      p[11]? = some hdr.headerChecksum ∧ readRange p 12 hdr.contentSize.toNat = .ok f.content ∧
      be32 p (12 + hdr.contentSize.toNat) = .ok hdr.crc ∧ p[16 + hdr.contentSize.toNat]? = some hdr.stopByte :=
  secureFrameFieldsAreTheReceivedValues { State.reset with ibuf := p } _ f (decS_answers_iff.mpr hf) rfl

/-- The frame a packet with the secure layout decodes to. -/
def layoutFrame (ib dev : Byte) (pn : Word) (content p : Memory) : Frame where
  packetNumber := pn
  infoSection := infoDec ib
  content := content
  secureHeader := some {
    startByte := 0xFF#8
    totalDataLen := BitVec.ofNat 16 (17 + content.length)
    deviceID := dev
    contentSize := BitVec.ofNat 16 content.length
    headerChecksum := negateSum (sumBytes (p.take 11))
    crc := bitSerialCrc (p.take (12 + content.length))
    stopByte := 0xFE#8 }

/-- The layout says of every read what it answers, so it says which frame is delivered. -/
theorem SecureLayout.decodeSecure_eq (h : SecureLayout ib dev pn content p) :
    decodeSecure p = .ok (layoutFrame ib dev pn content p) := by
  obtain ⟨⟨pn', info', content', _⟩, hf⟩ := decodeSecure_of_accepted h.accepted
  obtain ⟨⟨start, total, dev', cs, hck, crc, stop⟩, ⟨⟩, hstart, htotal, hdev, hpn, hinfo, hcs, hhck, hcontent, hcrc,
    hstop⟩ := fields_of_decodeSecure hf
  have hsize : cs.toNat = content.length :=
    (declaredSize_of_be16 hcs).symm.trans (declaredSize_of_memRead h.contentSize)
  simp only [hsize] at hcontent hcrc hstop
  rw [h.infoByte, Option.map_some] at hinfo
  have hcs_eq : cs = BitVec.ofNat 16 content.length := by rw [← hsize, BitVec.ofNat_toNat, BitVec.setWidth_eq]
  have hstart_eq : start = 0xFF#8 := Option.some.inj (hstart.symm.trans h.startByte)
  have htotal_eq : total = _ := Except.ok.inj (htotal.symm.trans h.be16_totalDataLen)
  have hdev_eq : dev' = dev := Option.some.inj (hdev.symm.trans h.deviceID)
  have hpn_eq : pn' = pn := Except.ok.inj (hpn.symm.trans h.be32_packetNumber)
  have hinfo_eq : info' = infoDec ib := (Option.some.inj hinfo).symm
  have hhck_eq : hck = _ := Option.some.inj (hhck.symm.trans h.headerChecksum)
  have hcontent_eq : content' = content := Except.ok.inj (hcontent.symm.trans h.contentBytes)
  have hcrc_eq : crc = _ := Except.ok.inj (hcrc.symm.trans h.crc_eq.2)
  have hstop_eq : stop = 0xFE#8 := Option.some.inj (hstop.symm.trans h.stopByte)
  rw [hf, hpn_eq, hinfo_eq, hcontent_eq, hstart_eq, htotal_eq, hdev_eq, hcs_eq, hhck_eq, hcrc_eq, hstop_eq]
  rfl

end

/-- Settles O53: an encoded packet has the secure layout, and the layout's frame is the operands'. -/
theorem secureRoundTrip : Obligations.SecureRoundTrip := by
  unfold Obligations.SecureRoundTrip
  intro hdp wfa ros info dev pn s t p hexec hrsp
  obtain ⟨hlen, rfl⟩ := securePacket_of_exec hexec hrsp
  have h := securePacket_layout hdp wfa ros info dev (pn.getD s.seq) hlen
  refine ⟨_, _, h.headerChecksum, h.crc_eq.2, fun u hu => decS_answers_iff.mpr ?_⟩
  rw [hu, h.decodeSecure_eq, layoutFrame, infoDec_infoEnc]

/-- Settles O54: the reads of the plain packet are the operands. -/
theorem plainRoundTrip : Obligations.PlainRoundTrip := by
  unfold Obligations.PlainRoundTrip
  intro hdp wfa ros info pn s t p hexec hrsp u hu
  obtain ⟨hlen, rfl⟩ := plainPacket_of_exec hexec hrsp
  rw [decP_answers_iff, hu, decodePlain_eq_ok_iff]
  refine ⟨?min, ?max, plainPacket_be32_packetNumber .., congrArg some (infoDec_infoEnc ..), rfl, rfl⟩ <;>
    (rw [plainPacket_length]; omega)

/-! ### Encoding a decoded frame -/

/-- A plain packet is the one that its packet number, its info byte and its other bytes encode to. -/
theorem eq_plainPacket_of_fields {hdp wfa ros : Bool} {info : Byte} {pn : Word} {p : Memory} (hpn : be32 p 0 = .ok pn)
    (hinfo : p[4]? = some (infoEnc hdp wfa ros info)) : p = plainPacket hdp wfa ros info pn (p.drop 5) := by
  have hnumber : p.drop 0 = beBytes 4 pn.toNat ++ p.drop 4 := drop_of_memRead (be32_eq_ok_iff.mp hpn)
  rw [plainPacket, List.append_assoc, List.singleton_append, ← drop_of_getElem? hinfo, ← hnumber, List.drop_zero]

/-- The byte that was decoded to an info section is the section's byte. -/
theorem infoByte_of_map_infoDec {o : Option Byte} {x : InfoSection} (h : o.map infoDec = some x) :
    o = some (infoSectionByte x) := by
  obtain ⟨b, rfl, rfl⟩ := Option.map_eq_some_iff.mp h
  exact congrArg some (infoEnc_infoDec b).symm

/-- Settles O56: the packet is rebuilt from the fields that the decoder read. -/
theorem plainReencodeRestoresThePacket : Obligations.PlainReencodeRestoresThePacket := by
  unfold Obligations.PlainReencodeRestoresThePacket
  intro s t u f hexec hrsp hu
  obtain ⟨-, hmax, hpn, hinfo, hcontent, -⟩ := decodePlain_eq_ok_iff.mp (eq_ok_of_finish_frame hexec hrsp)
  have hlen : u.ibuf.length ≤ 65535 := by
    rw [hu, hcontent, List.length_drop]
    omega
  have hpacket := eq_plainPacket_of_fields hpn (infoByte_of_map_infoDec hinfo)
  rw [answers, exec_encP _ _ _ _ _ hlen, hu, hcontent, Option.getD_some, ← hpacket]
  rfl

theorem beBytes_two_mod (v : Nat) : beBytes 2 (v % 65536) = beBytes 2 v := by
  have hhigh : BitVec.ofNat 8 ((v % 65536) >>> 8) = BitVec.ofNat 8 (v >>> 8) := by
    apply BitVec.eq_of_toNat_eq
    simp only [BitVec.toNat_ofNat, Nat.shiftRight_eq_div_pow]
    omega
  have hlow : BitVec.ofNat 8 (v % 65536) = BitVec.ofNat 8 v := by
    apply BitVec.eq_of_toNat_eq
    simp only [BitVec.toNat_ofNat]
    omega
  rw [beBytes_two, beBytes_two, hhigh, hlow]

section
variable {hdp wfa ros : Bool} {info dev : Byte} {pn : Word} {content p : Memory}

/-- The first eleven bytes, field by field. -/
theorem SecureLayout.take_header (h : SecureLayout (infoEnc hdp wfa ros info) dev pn content p) :
    p.take 11 = secureHeaderBytes hdp wfa ros info dev pn content.length := by
  have h0 : p.drop 0 = 0xFF#8 :: p.drop 1 := drop_of_getElem? h.startByte
  have h1 : p.drop 1 = beBytes 2 (17 + content.length) ++ p.drop 3 := by
    rw [← beBytes_two_mod]
    exact drop_of_memRead h.totalDataLen
  have h3 : p.drop 3 = dev :: p.drop 4 := drop_of_getElem? h.deviceID
  have h4 : p.drop 4 = beBytes 4 pn.toNat ++ p.drop 8 := drop_of_memRead h.packetNumber
  have h8 : p.drop 8 = infoEnc hdp wfa ros info :: p.drop 9 := drop_of_getElem? h.infoByte
  have h9 : p.drop 9 = beBytes 2 content.length ++ p.drop 11 := drop_of_memRead h.contentSize
  have hp : p = secureHeaderBytes hdp wfa ros info dev pn content.length ++ p.drop 11 := by
    conv_lhs => rw [← List.drop_zero (l := p), h0, h1, h3, h4, h8, h9]
    simp [secureHeaderBytes]
  conv_lhs => rw [hp]
  rw [← secureHeaderBytes_length hdp wfa ros info dev pn content.length, List.take_left]

theorem SecureLayout.take_body (h : SecureLayout (infoEnc hdp wfa ros info) dev pn content p) :
    p.take (12 + content.length) = secureBody hdp wfa ros info dev pn content := by
  have h11 : p.drop 11 = negateSum (sumBytes (p.take 11)) :: p.drop 12 := drop_of_getElem? h.headerChecksum
  obtain ⟨-, h12⟩ := drop_of_readRange h.contentBytes
  have hp : p = secureBody hdp wfa ros info dev pn content ++ p.drop (12 + content.length) := by
    conv_lhs => rw [← List.take_append_drop 11 p, h11, h12, h.take_header]
    simp [secureBody]
  conv_lhs => rw [hp]
  rw [← secureBody_length hdp wfa ros info dev pn content, List.take_left]

/-- The layout determines the packet. -/
theorem SecureLayout.eq_securePacket (h : SecureLayout (infoEnc hdp wfa ros info) dev pn content p) :
    p = securePacket hdp wfa ros info dev pn content := by
  have hcrc := drop_of_memRead h.crc
  have hstop := drop_of_getElem? h.stopByte
  have hend : p.drop (17 + content.length) = [] := List.drop_of_length_le h.length.le
  rw [Nat.add_right_comm] at hcrc hstop
  conv_lhs => rw [← List.take_append_drop (12 + content.length) p, hcrc, hstop, hend, h.take_body]
  rw [securePacket, List.append_assoc]

end

/-- The size of the content is the one the header declares. -/
theorem content_length_of_decodeSecure {p : Memory} {f : Frame} {hdr : SecureHeader} (hf : decodeSecure p = .ok f)
    (hsec : f.secureHeader = some hdr) : f.content.length = hdr.contentSize.toNat := by
  obtain ⟨_, hhdr, _, _, _, _, _, _, _, hcontent, _, _⟩ := fields_of_decodeSecure hf
  cases hsec.symm.trans hhdr
  exact (drop_of_readRange hcontent).1

/-- An accepted packet without a byte after its stop byte and with its length in `totalDataLen` has the secure layout of
its frame's fields. -/
theorem secureLayout_of_decodeSecure {p : Memory} {f : Frame} {hdr : SecureHeader} (hf : decodeSecure p = .ok f)
    (hsec : f.secureHeader = some hdr) (hlen : p.length = 17 + hdr.contentSize.toNat)
    (htotal_eq : hdr.totalDataLen = BitVec.ofNat 16 p.length) :
    SecureLayout (infoSectionByte f.infoSection) hdr.deviceID f.packetNumber f.content p := by
  have hacc := accepted_of_decodeSecure hf
  have hsize := content_length_of_decodeSecure hf hsec
  obtain ⟨_, hhdr, hstart, htotal, hdev, hpn, hinfo, hcs, hhck, hcontent, hcrc, hstop⟩ := fields_of_decodeSecure hf
  cases hsec.symm.trans hhdr
  obtain ⟨hstartIs, hstopIs⟩ := hacc.markers
  obtain ⟨c, hcrcIs, hstored⟩ := hacc.crc
  obtain ⟨ck, hck, hckIs⟩ := hacc.checksum
  have hbody : p.length - 5 = 12 + hdr.contentSize.toNat := by omega
  rw [checksum_of_le (by omega)] at hck
  rw [hbody, crcByteFormEqualsBitForm _ _ (by omega)] at hcrcIs
  rw [declaredSize_of_be16 hcs] at hstopIs hstored
  rw [htotal_eq] at htotal
  rw [be16_eq_ok_iff] at htotal hcs
  cases hcrcIs
  cases hck
  rw [← hsize] at hlen hcs hcontent hstored hstopIs
  exact {
    length := hlen
    startByte := hstartIs
    totalDataLen := hlen ▸ htotal
    deviceID := hdev
    packetNumber := be32_eq_ok_iff.mp hpn
    infoByte := infoByte_of_map_infoDec hinfo
    contentSize := hcs
    headerChecksum := hckIs
    contentBytes := hcontent
    crc := be32_eq_ok_iff.mp hstored
    stopByte := hstopIs }

/-- Settles O57: an encoded packet has the exact lengths of its layout, and a packet with exact lengths has the layout of
its frame's fields, which determines it. -/
theorem secureReencodeRestoresExactlyTheExactPackets : Obligations.SecureReencodeRestoresExactlyTheExactPackets := by
  unfold Obligations.SecureReencodeRestoresExactlyTheExactPackets
  intro s t u f hdr hexec hrsp hsec hu
  have hf := eq_ok_of_finish_frame hexec hrsp
  refine ⟨fun hanswers => ?exact, fun ⟨hlen, htotal⟩ => ?restores⟩
  case exact =>
    obtain ⟨hmax, hp⟩ := securePacket_of_exec hanswers rfl
    have h := securePacket_layout f.infoSection.highDataPriority f.infoSection.waitForAnswer f.infoSection.readOrSend
      (f.infoSection.info.setWidth 8) hdr.deviceID f.packetNumber hmax
    rw [Option.getD_some] at hp
    rw [← hp, hu] at h
    obtain ⟨_, hhdr, _, htotal, _⟩ := fields_of_decodeSecure hf
    cases hsec.symm.trans hhdr
    rw [← content_length_of_decodeSecure hf hsec, h.length]
    exact ⟨rfl, Except.ok.inj (htotal.symm.trans h.be16_totalDataLen)⟩
  case restores =>
    have h := secureLayout_of_decodeSecure hf hsec hlen htotal
    have hmax : u.ibuf.length ≤ 65535 := hu ▸ h.content_length_le
    rw [answers, exec_encS _ _ _ _ _ _ hmax, hu, Option.getD_some, ← h.eq_securePacket]
    rfl

/-! ### The wrong decoder -/

theorem toNat_append_eq_add {w v : Nat} (x : BitVec w) (y : BitVec v) :
    (x ++ y).toNat = x.toNat * 2 ^ v + y.toNat := by
  rw [BitVec.toNat_append, ← Nat.shiftLeft_add_eq_or_of_lt y.isLt, Nat.shiftLeft_eq]

/-- The first four bytes of a secure packet as one number: the start byte, `totalDataLen` and the device. -/
theorem SecureLayout.be32_zero {ib dev : Byte} {pn : Word} {content p : Memory}
    (h : SecureLayout ib dev pn content p) :
    be32 p 0 = .ok (0xFF#8 ++ BitVec.ofNat 16 (17 + content.length) ++ dev) := by
  have h1 : p[1]? = some _ := getElem?_of_memRead h.totalDataLen (k := 0) (by decide)
  have h2 : p[2]? = some _ := getElem?_of_memRead h.totalDataLen (k := 1) (by decide)
  rw [be32_eq_ok_iff, memRead_four_of_getElem? h.startByte h1 h2 h.deviceID, toNat_append_eq_add, toNat_append_eq_add,
    Except.ok.injEq]
  simp only [BitVec.toNat_ofNat, Nat.shiftRight_eq_div_pow]
  omega

/-- Settles O58: the plain decoder's reads, on the bytes of the secure layout. -/
theorem plainDecodeMisreadsSecurePackets : Obligations.PlainDecodeMisreadsSecurePackets := by
  unfold Obligations.PlainDecodeMisreadsSecurePackets
  intro hdp wfa ros info dev pn s t u p hexec hrsp hmax hu
  obtain ⟨hlen, rfl⟩ := securePacket_of_exec hexec hrsp
  have h := securePacket_layout hdp wfa ros info dev (pn.getD s.seq) hlen
  have hbyte : (securePacket hdp wfa ros info dev (pn.getD s.seq) s.ibuf)[4]? =
      some (BitVec.ofNat 8 ((pn.getD s.seq).toNat / 2 ^ 24)) := by
    rw [← Nat.shiftRight_eq_div_pow]
    exact getElem?_of_memRead h.packetNumber (k := 0) (by decide)
  rw [decP_answers_iff, hu, decodePlain_eq_ok_iff, hbyte]
  have hp := h.length
  exact ⟨by omega, hmax, h.be32_zero, rfl, rfl, rfl⟩

end Sys2Proof.Machine
end

section
/-! One changed byte of a secure packet (`45_decoder.md` R175): the checksum sees it in the header, the CRC in the content
and in its own field, and the marker detector at the stop byte. -/

namespace Sys2Proof.Machine

open Sys2Proof.Spec

/-! ### What one changed byte does to the checksum and to the CRC -/

theorem byteSum_set {l : Memory} {j : Nat} {a : Byte} (h : l[j]? = some a) (b : Byte) :
    byteSum (l.set j b) + a.toNat = byteSum l + b.toNat := by
  induction l generalizing j with
  | nil => cases h
  | cons x xs ih =>
    cases j with
    | zero =>
      cases h
      rw [List.set_cons_zero, byteSum_cons, byteSum_cons]
      omega
    | succ j =>
      have := ih (j := j) h
      rw [List.set_cons_succ, byteSum_cons, byteSum_cons]
      omega

/-- Two bytes differ by less than 256, so the sum changes modulo 256. -/
theorem negateSum_set_ne {l : Memory} {j : Nat} {a b : Byte} (h : l[j]? = some a) (hne : a ≠ b) :
    negateSum (sumBytes (l.set j b)) ≠ negateSum (sumBytes l) := by
  intro heq
  rw [negateSum_inj, sumBytes_eq_byteSum, sumBytes_eq_byteSum] at heq
  have hsum := byteSum_set h b
  have ha := a.isLt
  have hb := b.isLt
  exact hne (BitVec.eq_of_toNat_eq (by omega))

/-- The eight bits of the byte are a window of the CRC. -/
theorem bitSerialCrc_set_ne {l : Memory} {j : Nat} {a b : Byte} (h : l[j]? = some a) (hne : a ≠ b) :
    bitSerialCrc (l.set j b) ≠ bitSerialCrc l := by
  intro heq
  obtain ⟨hlt, rfl⟩ := List.getElem?_eq_some_iff.mp h
  have hset : l.set j b = l.take j ++ [b] ++ l.drop (j + 1) := by
    rw [List.set_eq_take_append_cons_drop, if_pos hlt, List.append_assoc, List.singleton_append]
  have hself : l = l.take j ++ [l[j]] ++ l.drop (j + 1) := by
    rw [List.append_assoc, List.singleton_append, ← List.drop_eq_getElem_cons hlt, List.take_append_drop]
  rw [hset] at heq
  conv_rhs at heq => rw [hself]
  simp only [bitSerialCrc, crcBits_append, BitVec.xor_left_inj] at heq
  have hbits := window_eq_of_foldl_crcBit_eq (by simp [crcBits_length]) (by simp [crcBits_length]) heq
  exact hne (List.singleton_inj.mp (crcBits_injective hbits)).symm

/-! ### The checks on a packet with one byte changed -/

theorem checksumPasses_iff_getElem? {p : Memory} (h : 11 ≤ p.length) :
    checksumPasses p ↔ p[11]? = some (negateSum (sumBytes (p.take 11))) := by
  simp [checksumPasses, checksum_of_le h]

theorem take_set_of_le {l : Memory} {m j : Nat} (h : m ≤ j) (b : Byte) : (l.set j b).take m = l.take m := by
  rw [List.take_set, List.set_eq_of_length_le ((List.length_take_le ..).trans h)]

section
variable {ib dev : Byte} {pn : Word} {content p : Memory} {j : Nat} {b : Byte}

/-- A change in the header or of its checksum. -/
theorem SecureLayout.not_checksumPasses_set (h : SecureLayout ib dev pn content p) (hj : j ≤ 11)
    (hne : p[j]? ≠ some b) : ¬ checksumPasses (p.set j b) := by
  have hlen := h.length
  rw [checksumPasses_iff_getElem? (by simp; omega)]
  intro hpass
  obtain hlt | rfl := Nat.lt_or_eq_of_le hj
  · have hbyte : (p.take 11)[j]? = some p[j] := by rw [List.getElem?_take_of_lt hlt, List.getElem?_eq_getElem]
    rw [List.getElem?_set_ne (by omega), h.headerChecksum, List.take_set, Option.some.injEq] at hpass
    refine negateSum_set_ne hbyte (fun heq => hne ?_) hpass.symm
    rw [List.getElem?_eq_getElem (by omega), heq]
  · rw [take_set_of_le (Nat.le_refl _), ← h.headerChecksum, List.getElem?_set_self (by omega)] at hpass
    exact hne hpass.symm

/-- A change after the header: the first two checks pass as before, with the same content size. -/
theorem SecureLayout.header_set (h : SecureLayout ib dev pn content p) (hj : 12 ≤ j) :
    checksumPasses (p.set j b) ∧ declaredSize (p.set j b) = content.length := by
  have hlen := h.length
  constructor
  · rw [checksumPasses_iff_getElem? (by simp; omega), List.getElem?_set_ne (by omega), take_set_of_le (by omega)]
    exact h.headerChecksum
  · refine declaredSize_of_memRead ?_
    rw [← h.contentSize]
    exact memRead_congr fun k hk => List.getElem?_set_ne (by omega)

theorem SecureLayout.crcPasses_set_iff (h : SecureLayout ib dev pn content p) (hj : 12 ≤ j) :
    crcPasses (p.set j b) ↔
      be32 (p.set j b) (12 + content.length) = .ok (bitSerialCrc ((p.set j b).take (12 + content.length))) := by
  have hlen := h.length
  have hbody : (p.set j b).length - 5 = 12 + content.length := by
    rw [List.length_set]
    omega
  obtain ⟨-, hsize⟩ := h.header_set (b := b) hj
  rw [crcPasses, hbody, hsize, crcByteFormEqualsBitForm _ _ (by simp; omega)]
  simp

/-- A change in the content changes the CRC, and one in the CRC field the stored value. -/
theorem SecureLayout.not_crcPasses_set (h : SecureLayout ib dev pn content p) (hj : 12 ≤ j)
    (hj' : j ≤ 15 + content.length) (hne : p[j]? ≠ some b) : ¬ crcPasses (p.set j b) := by
  have hlen := h.length
  rw [h.crcPasses_set_iff hj]
  intro hpass
  have hstored := h.crc_eq.2
  rcases Nat.lt_or_ge j (12 + content.length) with hlt | hge
  · have hsame : be32 (p.set j b) (12 + content.length) = be32 p (12 + content.length) := by
      rw [be32, be32, memRead_congr fun k hk => List.getElem?_set_ne (by omega)]
    have hbyte : (p.take (12 + content.length))[j]? = some p[j] := by
      rw [List.getElem?_take_of_lt hlt, List.getElem?_eq_getElem]
    rw [hsame, hstored, List.take_set, Except.ok.injEq] at hpass
    refine bitSerialCrc_set_ne hbyte (fun heq => hne ?_) hpass.symm
    rw [List.getElem?_eq_getElem (by omega), heq]
  · obtain ⟨k, rfl⟩ := Nat.exists_eq_add_of_le hge
    rw [take_set_of_le hge, be32_eq_ok_iff] at hpass
    rw [be32_eq_ok_iff] at hstored
    have hbyte := getElem?_of_memRead (k := k) hpass (by omega)
    rw [← getElem?_of_memRead (k := k) hstored (by omega), List.getElem?_set_self (by omega)] at hbyte
    exact hne hbyte.symm

/-- A change of the stop byte is outside everything the CRC covers. -/
theorem SecureLayout.stopByte_set (h : SecureLayout ib dev pn content p) (hne : p[16 + content.length]? ≠ some b) :
    crcPasses (p.set (16 + content.length) b) ∧ ¬ markersPass (p.set (16 + content.length) b) := by
  have hlen := h.length
  constructor
  · have hsame : be32 (p.set (16 + content.length) b) (12 + content.length) = be32 p (12 + content.length) := by
      rw [be32, be32, memRead_congr fun k hk => List.getElem?_set_ne (by omega)]
    rw [h.crcPasses_set_iff (by omega), hsame, take_set_of_le (by omega)]
    exact h.crc_eq.2
  · rintro ⟨-, hstop⟩
    rw [(h.header_set (Nat.le_add_right_of_le (by decide))).2, List.getElem?_set_self (by omega), ← h.stopByte] at hstop
    exact hne hstop.symm

end

/-- Settles O55: the region of the changed byte decides which check sees it. -/
theorem everySingleByteCorruptionIsRejected : Obligations.EverySingleByteCorruptionIsRejected := by
  unfold Obligations.EverySingleByteCorruptionIsRejected
  intro hdp wfa ros info dev pn s t u p j b hexec hrsp hj hne hu
  obtain ⟨hmax, rfl⟩ := securePacket_of_exec hexec hrsp
  have h := securePacket_layout hdp wfa ros info dev (pn.getD s.seq) hmax
  have hlen := h.length
  rw [decS_failsWith_iff, hu]
  have hlen17 : 17 ≤ ((securePacket hdp wfa ros info dev (pn.getD s.seq) s.ibuf).set j b).length := by
    rw [List.length_set]
    omega
  split
  case isTrue hheader => exact ⟨hlen17, h.not_checksumPasses_set hheader hne⟩
  case isFalse hheader =>
    obtain ⟨hck, hdeclared⟩ := h.header_set (b := b) (Nat.lt_of_not_le hheader)
    have hsize : 17 + declaredSize ((securePacket hdp wfa ros info dev (pn.getD s.seq) s.ibuf).set j b) ≤
        ((securePacket hdp wfa ros info dev (pn.getD s.seq) s.ibuf).set j b).length := by
      rw [List.length_set, hdeclared, hlen]
    split
    case isTrue hcovered =>
      exact ⟨hlen17, hck, hsize, h.not_crcPasses_set (Nat.lt_of_not_le hheader) hcovered hne⟩
    case isFalse hcovered =>
      obtain rfl : j = 16 + s.ibuf.length := by omega
      obtain ⟨hcrc, hmarkers⟩ := h.stopByte_set hne
      exact ⟨hlen17, hck, hsize, hcrc, hmarkers⟩

end Sys2Proof.Machine
end

section
/-! One step on a request (`10_state.md` R30): the response and the new counter are functions of the request and of the
number it draws, so requests that draw none do not see each other. -/

namespace Sys2Proof.Machine

open Sys2Proof.Spec

/-! ### A step without an operation -/

/-- Settles O7: the step accepts the request and performs it. -/
theorem stepPerformsTheDecodedOperation : Obligations.StepPerformsTheDecodedOperation :=
  fun _ _ _ _ hs hwf hi => step_of_request_of_decode hs hwf hi

/-- Settles O9: the step applies the reset. -/
theorem resetInputClearsOnlyTheCounter : Obligations.ResetInputClearsOnlyTheCounter := by
  unfold Obligations.ResetInputClearsOnlyTheCounter
  intro s rest hs
  rw [step, hs]
  rfl

/-- Settles O10: both are branches of the step itself. -/
theorem stepIdlesOrRefusesOverlongRequests : Obligations.StepIdlesOrRefusesOverlongRequests := by
  unfold Obligations.StepIdlesOrRefusesOverlongRequests
  refine ⟨fun s hs => ?idles, fun s r rest hs hlong => ?refuses⟩
  case idles =>
    rw [step, hs]
    rfl
  case refuses =>
    have hwf : r.wf = false := decide_eq_false (Nat.not_lt.mpr hlong)
    simp [step, hs, hwf]

/-! ### The answer to a request -/

theorem drawsNumber_of_decode {r : Request} {i : Instr} (h : decode r.cmd = .ok i) :
    drawsNumber r = draws i r.ibuf := by
  cases i with
  | encS hdp wfa ros info dev pn => cases pn <;> simp [drawsNumber, draws, omitsNumber, h]
  | encP hdp wfa ros info pn => cases pn <;> simp [drawsNumber, draws, omitsNumber, h]
  | _ => simp [drawsNumber, draws, omitsNumber, h]

theorem drawsNumber_of_decode_error {r : Request} {e : Reject} (h : decode r.cmd = .error e) :
    drawsNumber r = false := by
  simp [drawsNumber, h]

/-- The counter is read only by an operation that draws a number from it. -/
theorem resultOf_of_not_draws {i : Instr} {buf : Memory} (h : draws i buf = false) (m n : Word) :
    resultOf i m buf = resultOf i n buf := by
  cases i with
  | encS hdp wfa ros info dev pn =>
    cases pn with
    | some v => rfl
    | none =>
      have hlong : 65535 < buf.length := by simpa [draws, omitsNumber] using h
      simp only [resultOf, encodeSecure_of_gt hlong]
  | encP hdp wfa ros info pn =>
    cases pn with
    | some v => rfl
    | none =>
      have hlong : 65535 < buf.length := by simpa [draws, omitsNumber] using h
      simp only [resultOf, encodePlain_of_gt hlong]
  | _ => rfl

/-- One response ends the pseudocode at every state. -/
theorem finish_resultOf (i : Instr) (n : Word) (buf : Memory) :
    ∃ resp, ∀ s, finish (resultOf i n buf) s = .next (respond resp s) := by
  obtain ⟨t, _, hexec, -⟩ := exec_answersSoundly i ⟨n, buf, none, []⟩
  rw [exec_eq_finish] at hexec
  obtain ⟨resp, hr, -⟩ | ⟨f, hr, -⟩ := finish_next hexec
  · exact ⟨resp, fun s => congrArg (finish · s) hr⟩
  · exact ⟨.failure f, fun s => congrArg (finish · s) hr⟩

/-- The state after a request that was answered with this response. -/
def afterRequest (r : Request) (rest : List Input) (resp : Response) (s : State) : State where
  seq := if drawsNumber r then s.seq + 1 else s.seq
  ibuf := r.ibuf
  rsp := some resp
  inputs := rest

/-- Every step on the request answers it with this response, when `SEQ` is `n` or no number is drawn. -/
def AnswersWith (r : Request) (n : Word) (resp : Response) : Prop :=
  ∀ (s : State) (rest : List Input), s.inputs = .request r :: rest → s.seq = n ∨ drawsNumber r = false →
    step s = .next (afterRequest r rest resp s)

/-- A well-formed request has one answer for each number: nothing else of the state is read. -/
theorem exists_answersWith {r : Request} (hwf : r.wf = true) (n : Word) : ∃ resp, AnswersWith r n resp := by
  cases hd : decode r.cmd with
  | error e =>
    refine ⟨.failure .illegalCommand, fun s rest hs _ => ?_⟩
    rw [step_of_request hs hwf, perform, hd, afterRequest, drawsNumber_of_decode_error hd]
    rfl
  | ok i =>
    obtain ⟨resp, hresp⟩ := finish_resultOf i n r.ibuf
    refine ⟨resp, fun s rest hs hn => ?_⟩
    have hresult : resultOf i s.seq r.ibuf = resultOf i n r.ibuf := by
      obtain rfl | hdraws := hn
      · rfl
      · exact resultOf_of_not_draws (drawsNumber_of_decode hd ▸ hdraws) ..
    rw [step_of_request_of_decode hs hwf hd, exec_eq_finish, accept_seq, accept_ibuf, hresult, hresp, afterRequest,
      drawsNumber_of_decode hd]
    rfl

/-- A request that fails draws no number. -/
theorem not_drawsNumber_of_failure {s t : State} {r : Request} {rest : List Input} {f : Failure}
    (hs : s.inputs = .request r :: rest) (hwf : r.wf = true) (h : step s = .next t)
    (hrsp : t.rsp = some (.failure f)) : drawsNumber r = false := by
  cases hd : decode r.cmd with
  | error e => exact drawsNumber_of_decode_error hd
  | ok i =>
    rw [step_of_request_of_decode hs hwf hd] at h
    obtain ⟨-, hdraws, -⟩ := exec_failure h hrsp
    rwa [drawsNumber_of_decode hd]

/-- Settles O12: the request has an answer for the state's own counter. -/
theorem everyRequestIsAnswered : Obligations.EveryRequestIsAnswered := by
  unfold Obligations.EveryRequestIsAnswered
  intro s r rest hs hwf
  obtain ⟨resp, h⟩ := exists_answersWith hwf s.seq
  exact ⟨_, resp, h s rest hs (.inl rfl), rfl, rfl, rfl, rfl⟩

/-- Settles O16: one answer serves both states. -/
theorem answerDependsOnRequestAndCounterOnly : Obligations.AnswerDependsOnRequestAndCounterOnly := by
  unfold Obligations.AnswerDependsOnRequestAndCounterOnly
  intro s s' r rest rest' hs hs' hwf hseq
  obtain ⟨resp, h⟩ := exists_answersWith hwf s'.seq
  refine ⟨_, _, h s rest hs hseq, h s' rest' hs' (.inl rfl), rfl, ?_⟩
  simp only [afterRequest]
  split
  · rw [add_sub_cancel_left, add_sub_cancel_left]
  · rw [BitVec.sub_self, BitVec.sub_self]

/-- Settles O17: the failed request left the counter alone, and the next answer depends on nothing else. -/
theorem failureIsNotSticky : Obligations.FailureIsNotSticky := by
  unfold Obligations.FailureIsNotSticky
  intro s t r r' rest f hs hwf hwf' hstep hrsp
  have hdraws := not_drawsNumber_of_failure hs hwf hstep hrsp
  obtain ⟨resp, h⟩ := exists_answersWith hwf s.seq
  obtain ⟨resp', h'⟩ := exists_answersWith hwf' s.seq
  cases hstep.symm.trans (h s _ hs (.inl rfl))
  have hseq : (afterRequest r (.request r' :: rest) resp s).seq = s.seq := by simp only [afterRequest, hdraws]; rfl
  refine ⟨_, h' _ rest rfl (.inl hseq), ?without, ?repeated⟩
  case without =>
    rw [h' { s with inputs := .request r' :: rest } rest rfl (.inl rfl), afterRequest, afterRequest, hseq]
  case repeated =>
    rintro rfl
    cases (h s _ hs (.inl rfl)).symm.trans (h' s _ hs (.inl rfl))
    exact hrsp

/-- Settles O18: neither request reads or moves the counter, so each has one answer in both orders. -/
theorem operationsThatDrawNoNumberCommute : Obligations.OperationsThatDrawNoNumberCommute := by
  unfold Obligations.OperationsThatDrawNoNumberCommute
  intro s r r' rest hwf hwf' hdraws hdraws'
  obtain ⟨resp, h⟩ := exists_answersWith hwf s.seq
  obtain ⟨resp', h'⟩ := exists_answersWith hwf' s.seq
  refine ⟨_, _, _, _, h _ _ rfl (.inl rfl), h' _ rest rfl (.inr hdraws'), h' _ _ rfl (.inl rfl),
    h _ rest rfl (.inr hdraws), rfl, rfl, ?_, ?_⟩ <;> simp [afterRequest, hdraws, hdraws']

theorem run_succ_of_step {s s' : State} (h : step s = .next s') (k : Nat) :
    Host.Core.run core (k + 1) s = Host.Core.run core k s' := by
  have hcore : core.step s = .next s' := h
  simp only [Host.Core.run, hcore]

/-- Settles O19: by induction on the requests, each adding 1 if it draws a number. -/
theorem counterCountsAutomaticEncodes : Obligations.CounterCountsAutomaticEncodes := by
  unfold Obligations.CounterCountsAutomaticEncodes
  intro rs
  induction rs with
  | nil => exact fun s hs _ => ⟨s, rfl, hs, by simp⟩
  | cons r rs ih =>
    intro s hs hwf
    obtain ⟨hwf_r, hwf_rs⟩ := List.forall_mem_cons.mp hwf
    obtain ⟨resp, h⟩ := exists_answersWith hwf_r s.seq
    obtain ⟨t, hrun, hinputs, hseq⟩ := ih (afterRequest r (rs.map .request) resp s) rfl hwf_rs
    refine ⟨t, ?run, hinputs, ?count⟩
    case run =>
      rw [List.length_cons, run_succ_of_step (h s _ hs (.inl rfl))]
      exact hrun
    case count =>
      rw [hseq, afterRequest, List.countP_cons]
      cases drawsNumber r
      · simp
      · simp only [if_true, BitVec.ofNat_add]
        ac_rfl

end Sys2Proof.Machine
end

section
/-! The frame of each operation (`10_state.md` R20, `20_memory.md` R40), its failures (`60_exceptions.md` R191, R192) and
the ports of its response (`10_state.md` R29). -/

namespace Sys2Proof.Machine

open Sys2Proof.Spec

/-! ### Frames -/

/-- The counter after an operation: as before, or one higher with a delivered result. -/
theorem exec_seq_cases {i : Instr} {s t : State} (h : exec i s = .next t) :
    t.seq = s.seq ∨
      draws i s.ibuf = true ∧ t.seq = s.seq + 1 ∧ ∃ resp, Delivers i resp ∧ t.rsp = some resp := by
  obtain ⟨resp, -, hdel, rfl⟩ | ⟨f, -, -, rfl⟩ := exec_cases h
  · cases hdraws : draws i s.ibuf with
    | false => exact .inl (by rw [respond_seq, count_of_not_draws hdraws])
    | true => exact .inr ⟨rfl, by rw [respond_seq, count, hdraws]; rfl, resp, hdel, rfl⟩
  · exact .inl rfl

theorem omitsNumber_eq_false_of_mnemonic {i : Instr} (hS : i.mnemonic ≠ "ENC.S") (hP : i.mnemonic ≠ "ENC.P") :
    omitsNumber i = false := by
  cases i with
  | encS => exact absurd rfl hS
  | encP => exact absurd rfl hP
  | _ => rfl

/-- Settles O20: no number is drawn, and every operation keeps the inputs and `IBUF`. -/
theorem nonEncodeOperationsChangeOnlyTheResponse : Obligations.NonEncodeOperationsChangeOnlyTheResponse := by
  unfold Obligations.NonEncodeOperationsChangeOnlyTheResponse
  intro i s t hS hP h
  have homits := omitsNumber_eq_false_of_mnemonic hS hP
  have hibuf := exec_ibuf h
  exact ⟨exec_seq_of_not_draws (draws_of_not_omitsNumber homits _) h, exec_inputs h, congrArg List.length hibuf,
    fun off => congrArg (readByte · off) hibuf⟩

/-- The frame of an encode with this packet-number operand. -/
theorem encode_frame {i : Instr} {pn : Option Word} {s t : State} (homits : omitsNumber i = pn.isNone)
    (hpacket : ∀ resp, Delivers i resp → ∃ p, resp = .packet p) (h : exec i s = .next t) :
    t.inputs = s.inputs ∧ t.ibuf.length = s.ibuf.length ∧ (∀ off, readByte t.ibuf off = readByte s.ibuf off) ∧
      (t.seq = s.seq ∨ pn = none ∧ t.seq = s.seq + 1 ∧ ∃ p, t.rsp = some (.packet p)) ∧
      (pn.isSome = true → t.seq = s.seq) := by
  have hibuf := exec_ibuf h
  refine ⟨exec_inputs h, congrArg List.length hibuf, fun off => congrArg (readByte · off) hibuf, ?moved, ?kept⟩
  case moved =>
    obtain hseq | ⟨hdraws, hseq, resp, hdel, hrsp⟩ := exec_seq_cases h
    · exact .inl hseq
    · obtain ⟨p, rfl⟩ := hpacket resp hdel
      rw [draws, homits, Bool.and_eq_true, Option.isNone_iff_eq_none] at hdraws
      exact .inr ⟨hdraws.1, hseq, p, hrsp⟩
  case kept =>
    intro hsome
    have hfalse : omitsNumber i = false := by rw [homits, ← Option.not_isSome, hsome, Bool.not_true]
    exact exec_seq_of_not_draws (draws_of_not_omitsNumber hfalse _) h

/-- Settles O21: both encodes have that frame. -/
theorem encodesChangeOnlyTheResponseAndTheCounter : Obligations.EncodesChangeOnlyTheResponseAndTheCounter := by
  unfold Obligations.EncodesChangeOnlyTheResponseAndTheCounter
  rintro hdp wfa ros info dev pn s t (h | h)
  · refine encode_frame rfl (fun resp hdel => ?_) h
    cases hdel with
    | encS p => exact ⟨p, rfl⟩
  · refine encode_frame rfl (fun resp hdel => ?_) h
    cases hdel with
    | encP p => exact ⟨p, rfl⟩

/-! ### Failures -/

/-- Settles O22: a failure is the whole change. -/
theorem failureHasNoSideEffect : Obligations.FailureHasNoSideEffect := by
  unfold Obligations.FailureHasNoSideEffect
  intro i s t f h hrsp
  obtain ⟨-, -, rfl⟩ := exec_failure h hrsp
  exact h

theorem illegalCommand_not_mem_mayRaise (i : Instr) : Failure.illegalCommand ∉ mayRaise i := by
  cases i <;> simp [mayRaise]

/-- Settles O23: a failure is one listed for the operation, and `IllegalCommand` is listed for none. -/
theorem operationsRaiseOnlyTheirFailures : Obligations.OperationsRaiseOnlyTheirFailures := by
  unfold Obligations.OperationsRaiseOnlyTheirFailures
  intro i s t f h hrsp
  obtain ⟨hmem, -, -⟩ := exec_failure h hrsp
  exact ⟨hmem, fun hf => illegalCommand_not_mem_mayRaise i (hf ▸ hmem)⟩

/-! ### Status codes -/

theorem statusCode_injective {a b : Status} (h : statusCode a = statusCode b) : a = b := by
  have hcodes : ∀ f g : Failure, failureCode f = failureCode g → f = g := by
    intro f g
    cases f <;> cases g <;> decide
  have hnonzero : ∀ f : Failure, failureCode f ≠ 0x00#8 := by
    intro f
    cases f <;> decide
  cases a with
  | ok =>
    cases b with
    | ok => rfl
    | failed g => exact absurd h.symm (hnonzero g)
  | failed f =>
    cases b with
    | ok => exact absurd h (hnonzero f)
    | failed g => rw [hcodes f g h]

theorem statusCode_lt (a : Status) : (statusCode a).toNat < 8 := by
  cases a with
  | ok => decide
  | failed f => cases f <;> decide

theorem statusCode_eq_zero_iff {a : Status} : statusCode a = 0x00#8 ↔ a = .ok :=
  ⟨fun h => statusCode_injective (b := .ok) h, fun h => h ▸ rfl⟩

/-- Settles O25: the codes by definition, and that they are distinct. -/
theorem statusCodesAreDistinct : Obligations.StatusCodesAreDistinct := by
  unfold Obligations.StatusCodesAreDistinct
  refine ⟨⟨rfl, rfl, rfl, rfl, rfl, rfl, rfl⟩, fun r hr => ?success, fun _ => rfl, fun _ _ => statusCode_injective,
    statusCode_lt, fun _ => statusCode_eq_zero_iff⟩
  cases r with
  | failure f => exact absurd rfl (hr f)
  | _ => rfl

/-! ### The ports of a response -/

/-- A response whose `OBUF` fits the 17-bit `OLEN` is carried by its ports. -/
theorem portsCarry_of_obuf_lt {r : Response} (h : ∀ m, portOBUF r = some m → m.length < 2 ^ 17) : portsCarry r := by
  cases r with
  | getbit v =>
    refine ⟨_, rfl, by simp, fun j hj => ?_⟩
    rw [BitVec.getLsbD_setWidth, BitVec.getLsbD_of_ge _ _ hj, Bool.and_false]
  | packet p =>
    obtain ⟨olen, hport, hlen⟩ := olen_of_obuf (resp := .packet p) rfl (h p rfl)
    exact ⟨rfl, by rw [hport, Option.map_some, hlen]⟩
  | frame f =>
    obtain ⟨olen, hport, hlen⟩ := olen_of_obuf (resp := .frame f) rfl (h _ rfl)
    exact ⟨rfl, by rw [hport, Option.map_some, hlen], rfl, rfl, rfl, rfl, rfl, rfl, rfl, rfl, rfl, rfl, rfl, rfl, rfl⟩
  | infodec x => exact ⟨rfl, rfl, rfl, rfl⟩
  | failure f => trivial
  | setbit b | infoenc b | cksum b | crc32 w => exact rfl

theorem portsCarry_of_exec {i : Instr} {s t : State} {r : Response} (h : exec i s = .next t) (hrsp : t.rsp = some r) :
    portsCarry r :=
  portsCarry_of_obuf_lt fun _ hm =>
    (obuf_length_le_of_responseSound (exec_rspSound h r hrsp) hm).trans_lt (by decide)

/-- The ports a delivered result drives are those R29 names for its operation. -/
theorem driven_of_delivers {i : Instr} {r : Response} (h : Delivers i r) :
    ((portRB r).isSome = true ↔ i.mnemonic ∈ ["SETBIT", "GETBIT", "INFOENC", "CKSUM"]) ∧
    ((portRW r).isSome = true ↔ i.mnemonic = "CRC32") ∧
    ((portOBUF r).isSome = true ↔ i.mnemonic ∈ ["ENC.S", "ENC.P", "DEC.S", "DEC.P"]) ∧
    ((infoOf r).isSome = true ↔ i.mnemonic ∈ ["INFODEC", "DEC.S", "DEC.P"]) ∧
    ((portFPN r).isSome = true ↔ i.mnemonic ∈ ["DEC.S", "DEC.P"]) ∧
    (∀ driven ∈ [(portFSTART r).isSome, (portFTLEN r).isSome, (portFDEV r).isSome, (portFCSIZE r).isSome,
      (portFHCK r).isSome, (portFCRC r).isSome, (portFSTOP r).isSome], driven = true ↔ i.mnemonic = "DEC.S") ∧
    (portFSEC r = some true ↔ i.mnemonic = "DEC.S") ∧
    (portFSEC r = some false ↔ i.mnemonic = "DEC.P") := by
  cases h <;>
    simp [portRB, portRW, portOBUF, infoOf, portFPN, portFSTART, portFTLEN, portFDEV, portFCSIZE, portFHCK, portFCRC,
      portFSTOP, portFSEC, secureOf, frameOf, Instr.mnemonic, *]

theorem responseStatus_of_delivers {i : Instr} {r : Response} (h : Delivers i r) : responseStatus r = .ok := by
  cases h <;> rfl

/-- Settles O24: a response is a result of its operation's kind, or a failure, which drives no port but `STATUS`. -/
theorem responseDrivesThePortsOfItsOperation : Obligations.ResponseDrivesThePortsOfItsOperation := by
  unfold Obligations.ResponseDrivesThePortsOfItsOperation
  intro i s t r h hrsp
  refine ⟨portsCarry_of_exec h hrsp, statusCode_eq_zero_iff, ?_⟩
  obtain ⟨resp, -, hdel, rfl⟩ | ⟨f, -, -, rfl⟩ := exec_cases h
  · cases hrsp
    exact ⟨fun hfail => absurd (responseStatus_of_delivers hdel) hfail, fun _ => driven_of_delivers hdel⟩
  · cases hrsp
    exact ⟨fun _ => ⟨rfl, rfl, rfl, rfl, rfl, rfl⟩, fun hok => by cases hok⟩

end Sys2Proof.Machine
end

section
/-! The table of operations (`30_encoding.md` R80 to R83): a command word is its fields, and what a row's mask keeps of it
decides which operation the word selects. -/

namespace Sys2Proof

/-! ### A word is its fields -/

section
variable {c c' : Cmd}

/-- A field of eight bits tells the eight bits of the word where it lies. -/
theorem getLsbD_eq_of_extractLsb'_eq {lo n j : Nat} (h : c.extractLsb' lo n = c'.extractLsb' lo n) (hlo : lo ≤ j)
    (hn : j < lo + n) : c.getLsbD j = c'.getLsbD j := by
  have hbit := congrArg (·.getLsbD (j - lo)) h
  have hj : j - lo < n := by omega
  simpa [BitVec.getLsbD_extractLsb', hj, Nat.add_sub_cancel' hlo] using hbit

theorem eq_of_fields (hop : opField c = opField c') (hsec : secField c = secField c') (hpnv : pnvField c = pnvField c')
    (hval : valField c = valField c') (hhdp : hdpField c = hdpField c') (hwfa : wfaField c = wfaField c')
    (hros : rosField c = rosField c') (hrsv : rsvField c = rsvField c') (ha : aField c = aField c')
    (hb : bField c = bField c') (hpn : pnField c = pnField c') : c = c' := by
  apply BitVec.eq_of_getLsbD_eq
  intro j hj
  obtain h | rfl | rfl | rfl | rfl | rfl | rfl | h | h | h | h : j < 8 ∨ j = 8 ∨ j = 9 ∨ j = 10 ∨ j = 11 ∨ j = 12 ∨
    j = 13 ∨ (14 ≤ j ∧ j < 16) ∨ (16 ≤ j ∧ j < 24) ∨ (24 ≤ j ∧ j < 32) ∨ 32 ≤ j := by omega
  · exact getLsbD_eq_of_extractLsb'_eq hop (Nat.zero_le j) (by omega)
  · exact hsec
  · exact hpnv
  · exact hval
  · exact hhdp
  · exact hwfa
  · exact hros
  · exact getLsbD_eq_of_extractLsb'_eq hrsv h.1 h.2
  · exact getLsbD_eq_of_extractLsb'_eq ha h.1 h.2
  · exact getLsbD_eq_of_extractLsb'_eq hb h.1 h.2
  · exact getLsbD_eq_of_extractLsb'_eq hpn h hj

end

/-- A word with `RSV = 0` is packed from its fields. -/
theorem packCmd_fields {cmd : Cmd} (h : rsvField cmd = 0#2) :
    packCmd (pnField cmd) (bField cmd) (aField cmd) (rosField cmd) (wfaField cmd) (hdpField cmd) (valField cmd)
      (pnvField cmd) (secField cmd) (opField cmd) = cmd :=
  eq_of_fields (opField_packCmd ..) (secField_packCmd ..) (pnvField_packCmd ..) (valField_packCmd ..)
    (hdpField_packCmd ..) (wfaField_packCmd ..) (rosField_packCmd ..) ((rsvField_packCmd ..).trans h.symm)
    (aField_packCmd ..) (bField_packCmd ..) (pnField_packCmd ..)

/-! ### The fields of a masked word -/

section
variable (c m : Cmd)

theorem opField_and : opField (c &&& m) = opField c &&& opField m := BitVec.extractLsb'_and
theorem rsvField_and : rsvField (c &&& m) = rsvField c &&& rsvField m := BitVec.extractLsb'_and
theorem aField_and : aField (c &&& m) = aField c &&& aField m := BitVec.extractLsb'_and
theorem bField_and : bField (c &&& m) = bField c &&& bField m := BitVec.extractLsb'_and
theorem pnField_and : pnField (c &&& m) = pnField c &&& pnField m := BitVec.extractLsb'_and
theorem secField_and : secField (c &&& m) = (secField c && secField m) := BitVec.getLsbD_and
theorem pnvField_and : pnvField (c &&& m) = (pnvField c && pnvField m) := BitVec.getLsbD_and
theorem valField_and : valField (c &&& m) = (valField c && valField m) := BitVec.getLsbD_and
theorem hdpField_and : hdpField (c &&& m) = (hdpField c && hdpField m) := BitVec.getLsbD_and
theorem wfaField_and : wfaField (c &&& m) = (wfaField c && wfaField m) := BitVec.getLsbD_and
theorem rosField_and : rosField (c &&& m) = (rosField c && rosField m) := BitVec.getLsbD_and

variable {c m}

end

/-- Words that agree under a mask with all of `OP` and `RSV` have the same `OP` and `RSV`. -/
theorem op_rsv_eq_of_and_eq {c c' m : Cmd} (h : c &&& m = c' &&& m) (hop : opField m = BitVec.allOnes 8)
    (hrsv : rsvField m = BitVec.allOnes 2) : opField c = opField c' ∧ rsvField c = rsvField c' := by
  have hop' := congrArg opField h
  have hrsv' := congrArg rsvField h
  rw [opField_and, opField_and, hop, BitVec.and_allOnes, BitVec.and_allOnes] at hop'
  rw [rsvField_and, rsvField_and, hrsv, BitVec.and_allOnes, BitVec.and_allOnes] at hrsv'
  exact ⟨hop', hrsv'⟩

/-! ### Matching a row -/

/-- The rows of the operations without a mode. -/
theorem and_opMask_eq_iff {cmd : Cmd} {op : Byte} :
    cmd &&& 0x000000000000C0FF#64 = op.setWidth 64 ↔ rsvField cmd = 0#2 ∧ opField cmd = op := by
  constructor
  · intro h
    rw [← packCmd_and_opMask 0 0 0 false false false false false false op] at h
    obtain ⟨hop, hrsv⟩ := op_rsv_eq_of_and_eq h rfl rfl
    exact ⟨hrsv.trans (rsvField_packCmd ..), hop.trans (opField_packCmd ..)⟩
  · rintro ⟨hrsv, rfl⟩
    rw [← packCmd_and_opMask (pnField cmd) (bField cmd) (aField cmd) (rosField cmd) (wfaField cmd) (hdpField cmd)
      (valField cmd) (pnvField cmd) (secField cmd), packCmd_fields hrsv]

/-- The rows of the framed operations. -/
theorem and_framedMask_eq_iff {cmd : Cmd} {sec : Bool} {op : Byte} :
    cmd &&& 0x000000000000C1FF#64 = (BitVec.ofBool sec).setWidth 64 <<< 8 ||| op.setWidth 64 ↔
      rsvField cmd = 0#2 ∧ opField cmd = op ∧ secField cmd = sec := by
  constructor
  · intro h
    rw [← packCmd_and_framedMask 0 0 0 false false false false false sec op] at h
    obtain ⟨hop, hrsv⟩ := op_rsv_eq_of_and_eq h rfl rfl
    have hsec := congrArg secField h
    rw [secField_and, secField_and, secField_packCmd] at hsec
    exact ⟨hrsv.trans (rsvField_packCmd ..), hop.trans (opField_packCmd ..), by simpa [secField] using hsec⟩
  · rintro ⟨hrsv, rfl, rfl⟩
    rw [← packCmd_and_framedMask (pnField cmd) (bField cmd) (aField cmd) (rosField cmd) (wfaField cmd) (hdpField cmd)
      (valField cmd) (pnvField cmd), packCmd_fields hrsv]

/-- The row of a mnemonic matches every word that selects one of its operations. -/
theorem row_matches_of_selects {cmd : Cmd} {i : Instr} (hrsv : rsvField cmd = 0#2) (h : Selects cmd i) :
    ∃ row ∈ opTable, row.mnemonic = i.mnemonic ∧ cmd &&& row.mask = row.pattern := by
  cases h with
  | setbit hop => exact ⟨opTable[0], by decide, rfl, and_opMask_eq_iff.mpr ⟨hrsv, hop⟩⟩
  | getbit hop => exact ⟨opTable[1], by decide, rfl, and_opMask_eq_iff.mpr ⟨hrsv, hop⟩⟩
  | infoenc hop => exact ⟨opTable[2], by decide, rfl, and_opMask_eq_iff.mpr ⟨hrsv, hop⟩⟩
  | infodec hop => exact ⟨opTable[3], by decide, rfl, and_opMask_eq_iff.mpr ⟨hrsv, hop⟩⟩
  | cksum hop => exact ⟨opTable[4], by decide, rfl, and_opMask_eq_iff.mpr ⟨hrsv, hop⟩⟩
  | crc32 hop => exact ⟨opTable[5], by decide, rfl, and_opMask_eq_iff.mpr ⟨hrsv, hop⟩⟩
  | encS hop hsec => exact ⟨opTable[6], by decide, rfl, and_framedMask_eq_iff.mpr ⟨hrsv, hop, hsec⟩⟩
  | encP hop hsec => exact ⟨opTable[7], by decide, rfl, and_framedMask_eq_iff.mpr ⟨hrsv, hop, hsec⟩⟩
  | decS hop hsec => exact ⟨opTable[8], by decide, rfl, and_framedMask_eq_iff.mpr ⟨hrsv, hop, hsec⟩⟩
  | decP hop hsec => exact ⟨opTable[9], by decide, rfl, and_framedMask_eq_iff.mpr ⟨hrsv, hop, hsec⟩⟩

/-- A row's words select an operation of its mnemonic. -/
theorem selects_of_row_matches {cmd : Cmd} {row : OpRow} (hmem : row ∈ opTable) (h : cmd &&& row.mask = row.pattern) :
    rsvField cmd = 0#2 ∧ ∃ i, Selects cmd i ∧ i.mnemonic = row.mnemonic := by
  simp only [opTable, List.mem_cons, List.not_mem_nil, or_false] at hmem
  obtain rfl | rfl | rfl | rfl | rfl | rfl | rfl | rfl | rfl | rfl := hmem
  · obtain ⟨hrsv, hop⟩ := (and_opMask_eq_iff (op := 0x01#8)).mp h
    exact ⟨hrsv, _, .setbit hop, rfl⟩
  · obtain ⟨hrsv, hop⟩ := (and_opMask_eq_iff (op := 0x02#8)).mp h
    exact ⟨hrsv, _, .getbit hop, rfl⟩
  · obtain ⟨hrsv, hop⟩ := (and_opMask_eq_iff (op := 0x03#8)).mp h
    exact ⟨hrsv, _, .infoenc hop, rfl⟩
  · obtain ⟨hrsv, hop⟩ := (and_opMask_eq_iff (op := 0x04#8)).mp h
    exact ⟨hrsv, _, .infodec hop, rfl⟩
  · obtain ⟨hrsv, hop⟩ := (and_opMask_eq_iff (op := 0x05#8)).mp h
    exact ⟨hrsv, _, .cksum hop, rfl⟩
  · obtain ⟨hrsv, hop⟩ := (and_opMask_eq_iff (op := 0x06#8)).mp h
    exact ⟨hrsv, _, .crc32 hop, rfl⟩
  · obtain ⟨hrsv, hop, hsec⟩ := (and_framedMask_eq_iff (op := 0x07#8) (sec := true)).mp h
    exact ⟨hrsv, _, .encS hop hsec, rfl⟩
  · obtain ⟨hrsv, hop, hsec⟩ := (and_framedMask_eq_iff (op := 0x07#8) (sec := false)).mp h
    exact ⟨hrsv, _, .encP hop hsec, rfl⟩
  · obtain ⟨hrsv, hop, hsec⟩ := (and_framedMask_eq_iff (op := 0x08#8) (sec := true)).mp h
    exact ⟨hrsv, _, .decS hop hsec, rfl⟩
  · obtain ⟨hrsv, hop, hsec⟩ := (and_framedMask_eq_iff (op := 0x08#8) (sec := false)).mp h
    exact ⟨hrsv, _, .decP hop hsec, rfl⟩

end Sys2Proof
end

section
/-! The rows and the decoder (`30_encoding.md` R81 to R83), and the fields that a step does not read. -/

namespace Sys2Proof

/-! ### Rows and legal words -/

theorem row_eq_of_mnemonic_eq : ∀ row ∈ opTable, ∀ row' ∈ opTable, row.mnemonic = row'.mnemonic → row = row' := by
  decide

theorem row_matches_iff {cmd : Cmd} {row : OpRow} (hmem : row ∈ opTable) :
    cmd &&& row.mask = row.pattern ↔ ∃ i, decode cmd = .ok i ∧ i.mnemonic = row.mnemonic := by
  constructor
  · intro h
    obtain ⟨hrsv, i, hsel, hi⟩ := selects_of_row_matches hmem h
    exact ⟨i, decode_of_selects hrsv hsel, hi⟩
  · rintro ⟨i, hi, hrow⟩
    obtain ⟨hrsv, hsel⟩ := selects_of_decode hi
    obtain ⟨row', hmem', hrow', h⟩ := row_matches_of_selects hrsv hsel
    rwa [row_eq_of_mnemonic_eq row' hmem' row hmem (hrow'.trans hrow)] at h

/-- Settles O3: a row's mask and pattern say what the decoder's branch for its mnemonic says. -/
theorem rowSelectsItsOperation : Obligations.RowSelectsItsOperation :=
  fun _ _ hmem => row_matches_iff hmem

/-- The legal words (R82). -/
theorem decode_ok_iff_legal {cmd : Cmd} :
    (∃ i, decode cmd = .ok i) ↔ rsvField cmd = 0#2 ∧ 1 ≤ (opField cmd).toNat ∧ (opField cmd).toNat ≤ 8 := by
  simp only [decode_eq_ok_iff]
  constructor
  · rintro ⟨i, hrsv, hsel⟩
    refine ⟨hrsv, ?_⟩
    cases hsel <;> simp [*]
  · rintro ⟨hrsv, hmin, hmax⟩
    have hop : ∀ n < 256, (opField cmd).toNat = n → opField cmd = BitVec.ofNat 8 n := fun n hn h => by
      rw [← h, BitVec.ofNat_toNat, BitVec.setWidth_eq]
    generalize hn : (opField cmd).toNat = n at hmin hmax
    replace hop := hop n (by omega) hn
    interval_cases n
    · exact ⟨_, hrsv, .setbit hop⟩
    · exact ⟨_, hrsv, .getbit hop⟩
    · exact ⟨_, hrsv, .infoenc hop⟩
    · exact ⟨_, hrsv, .infodec hop⟩
    · exact ⟨_, hrsv, .cksum hop⟩
    · exact ⟨_, hrsv, .crc32 hop⟩
    · cases hsec : secField cmd
      · exact ⟨_, hrsv, .encP hop hsec⟩
      · exact ⟨_, hrsv, .encS hop hsec⟩
    · cases hsec : secField cmd
      · exact ⟨_, hrsv, .decP hop hsec⟩
      · exact ⟨_, hrsv, .decS hop hsec⟩

/-- Settles O4: a row matches exactly the words that decode, and by its mnemonic no other row does. -/
theorem rowsAreDisjointAndCoverTheLegalWords : Obligations.RowsAreDisjointAndCoverTheLegalWords := by
  unfold Obligations.RowsAreDisjointAndCoverTheLegalWords
  intro cmd
  refine ⟨Iff.trans ⟨?decodes, ?covers⟩ decode_ok_iff_legal, ?disjoint⟩
  case decodes =>
    rintro ⟨row, hmem, h⟩
    obtain ⟨i, hi, -⟩ := (row_matches_iff hmem).mp h
    exact ⟨i, hi⟩
  case covers =>
    rintro ⟨i, hi⟩
    obtain ⟨hrsv, hsel⟩ := selects_of_decode hi
    obtain ⟨row, hmem, -, h⟩ := row_matches_of_selects hrsv hsel
    exact ⟨row, hmem, h⟩
  case disjoint =>
    intro row hmem row' hmem' h h'
    obtain ⟨i, hi, hrow⟩ := (row_matches_iff hmem).mp h
    obtain ⟨i', hi', hrow'⟩ := (row_matches_iff hmem').mp h'
    cases hi.symm.trans hi'
    exact row_eq_of_mnemonic_eq row hmem row' hmem' (hrow.symm.trans hrow')

/-- Settles O5, by running the decoder and the encoder on the words of `30_encoding.md` section 9. -/
theorem workedCommandWordsDecode : Obligations.WorkedCommandWordsDecode := by
  unfold Obligations.WorkedCommandWordsDecode
  decide

namespace Machine

/-- Settles O8: an illegal word does not decode, and what does not decode is answered with `IllegalCommand`. -/
theorem illegalWordIsAnsweredWithIllegalCommand : Obligations.IllegalWordIsAnsweredWithIllegalCommand := by
  unfold Obligations.IllegalWordIsAnsweredWithIllegalCommand
  intro s r rest hs hwf hillegal
  rw [step_of_request hs hwf, perform]
  cases hd : decode r.cmd with
  | error e => rfl
  | ok i =>
    obtain ⟨hrsv, hmin, hmax⟩ := decode_ok_iff_legal.mp ⟨i, hd⟩
    obtain h | h | h := hillegal
    · exact absurd hrsv h
    · exact absurd hmin (by rw [opField, h]; decide)
    · exact absurd hmax (Nat.not_le.mpr h)

end Machine

/-! ### The used bits -/

/-- The bits of a word that its row uses; an encode that omits its packet number does not use `PN` either (R81). -/
def usedBits (cmd : Cmd) (row : OpRow) : Cmd :=
  if opField cmd = 0x07#8 ∧ pnvField cmd = false then cmd &&& row.used &&& 0x00000000FFFFFFFF#64 else cmd &&& row.used

theorem usedBits_of_ne {cmd : Cmd} (h : opField cmd ≠ 0x07#8) (row : OpRow) : usedBits cmd row = cmd &&& row.used :=
  if_neg fun h' => h h'.1

theorem usedBits_of_pnv {cmd : Cmd} (h : pnvField cmd = true) (row : OpRow) : usedBits cmd row = cmd &&& row.used :=
  if_neg fun h' => Bool.false_ne_true (h'.2.symm.trans h)

theorem usedBits_of_omitted {cmd : Cmd} (hop : opField cmd = 0x07#8) (h : pnvField cmd = false) (row : OpRow) :
    usedBits cmd row = cmd &&& (row.used &&& 0x00000000FFFFFFFF#64) :=
  (if_pos ⟨hop, h⟩).trans (BitVec.and_assoc ..)

/-- A mask that uses a whole field or none of it. -/
def fill (w : Nat) (used : Bool) : BitVec w :=
  if used then BitVec.allOnes w else 0

theorem and_fill {w : Nat} (x : BitVec w) (used : Bool) : x &&& fill w used = if used then x else 0 := by
  cases used
  · exact BitVec.and_zero
  · exact BitVec.and_allOnes

/-- Masking clears the fields that the mask does not use. -/
theorem and_eq_packCmd {cmd m : Cmd} (hrsv : rsvField cmd = 0#2) {pn b a : Bool} (hpn : pnField m = fill 32 pn)
    (hb : bField m = fill 8 b) (ha : aField m = fill 8 a) (hop : opField m = fill 8 true) :
    cmd &&& m = packCmd (if pn then pnField cmd else 0) (if b then bField cmd else 0) (if a then aField cmd else 0)
      (rosField m && rosField cmd) (wfaField m && wfaField cmd) (hdpField m && hdpField cmd)
      (valField m && valField cmd) (pnvField m && pnvField cmd) (secField m && secField cmd) (opField cmd) := by
  apply eq_of_fields
  · rw [opField_and, hop, and_fill, if_pos rfl, opField_packCmd]
  · rw [secField_and, Bool.and_comm, secField_packCmd]
  · rw [pnvField_and, Bool.and_comm, pnvField_packCmd]
  · rw [valField_and, Bool.and_comm, valField_packCmd]
  · rw [hdpField_and, Bool.and_comm, hdpField_packCmd]
  · rw [wfaField_and, Bool.and_comm, wfaField_packCmd]
  · rw [rosField_and, Bool.and_comm, rosField_packCmd]
  · rw [rsvField_and, hrsv, BitVec.zero_and, rsvField_packCmd]
  · rw [aField_and, ha, and_fill, aField_packCmd]
  · rw [bField_and, hb, and_fill, bField_packCmd]
  · rw [pnField_and, hpn, and_fill, pnField_packCmd]

/-- The used bits of a word that is no encode: no such operation uses `PN`. -/
theorem usedBits_eq_packCmd {cmd : Cmd} {row : OpRow} {op : Byte} (b a : Bool) (hrsv : rsvField cmd = 0#2)
    (hop : opField cmd = op) (hne : op ≠ 0x07#8) (hpn : pnField row.used = fill 32 false)
    (hb : bField row.used = fill 8 b) (ha : aField row.used = fill 8 a) (hused : opField row.used = fill 8 true) :
    usedBits cmd row = packCmd 0 (if b then bField cmd else 0) (if a then aField cmd else 0)
      (rosField row.used && rosField cmd) (wfaField row.used && wfaField cmd) (hdpField row.used && hdpField cmd)
      (valField row.used && valField cmd) (pnvField row.used && pnvField cmd) (secField row.used && secField cmd)
      op := by
  rw [usedBits_of_ne (hop ▸ hne), and_eq_packCmd hrsv hpn hb ha hused, hop]
  rfl

theorem encode_of_selects {cmd : Cmd} {i : Instr} (hrsv : rsvField cmd = 0#2) (h : Selects cmd i) :
    ∃ row ∈ opTable, row.mnemonic = i.mnemonic ∧ encode i = usedBits cmd row := by
  cases h with
  | setbit hop =>
    have hused := usedBits_eq_packCmd (row := opTable[0]) true true hrsv hop (by decide) rfl rfl rfl rfl
    exact ⟨opTable[0], by decide, rfl, hused.symm⟩
  | getbit hop =>
    have hused := usedBits_eq_packCmd (row := opTable[1]) true true hrsv hop (by decide) rfl rfl rfl rfl
    exact ⟨opTable[1], by decide, rfl, hused.symm⟩
  | infoenc hop =>
    have hused := usedBits_eq_packCmd (row := opTable[2]) false true hrsv hop (by decide) rfl rfl rfl rfl
    exact ⟨opTable[2], by decide, rfl, hused.symm⟩
  | infodec hop =>
    have hused := usedBits_eq_packCmd (row := opTable[3]) false true hrsv hop (by decide) rfl rfl rfl rfl
    exact ⟨opTable[3], by decide, rfl, hused.symm⟩
  | cksum hop =>
    have hused := usedBits_eq_packCmd (row := opTable[4]) false false hrsv hop (by decide) rfl rfl rfl rfl
    exact ⟨opTable[4], by decide, rfl, hused.symm⟩
  | crc32 hop =>
    have hused := usedBits_eq_packCmd (row := opTable[5]) false false hrsv hop (by decide) rfl rfl rfl rfl
    exact ⟨opTable[5], by decide, rfl, hused.symm⟩
  | encS hop hsec =>
    refine ⟨opTable[6], by decide, rfl, ?_⟩
    cases hpnv : pnvField cmd with
    | true =>
      rw [usedBits_of_pnv hpnv, pnOperand, hpnv,
        and_eq_packCmd hrsv (pn := true) (b := true) (a := true) rfl rfl rfl rfl, hop, hsec, hpnv]
      rfl
    | false =>
      rw [usedBits_of_omitted hop hpnv, pnOperand, hpnv,
        and_eq_packCmd hrsv (pn := false) (b := true) (a := true) rfl rfl rfl rfl, hop, hsec, hpnv]
      rfl
  | encP hop hsec =>
    refine ⟨opTable[7], by decide, rfl, ?_⟩
    cases hpnv : pnvField cmd with
    | true =>
      rw [usedBits_of_pnv hpnv, pnOperand, hpnv,
        and_eq_packCmd hrsv (pn := true) (b := false) (a := true) rfl rfl rfl rfl, hop, hsec, hpnv]
      rfl
    | false =>
      rw [usedBits_of_omitted hop hpnv, pnOperand, hpnv,
        and_eq_packCmd hrsv (pn := false) (b := false) (a := true) rfl rfl rfl rfl, hop, hsec, hpnv]
      rfl
  | decS hop hsec =>
    have hused := usedBits_eq_packCmd (row := opTable[8]) false false hrsv hop (by decide) rfl rfl rfl rfl
    rw [hsec] at hused
    exact ⟨opTable[8], by decide, rfl, hused.symm⟩
  | decP hop hsec =>
    have hused := usedBits_eq_packCmd (row := opTable[9]) false false hrsv hop (by decide) rfl rfl rfl rfl
    rw [hsec] at hused
    exact ⟨opTable[9], by decide, rfl, hused.symm⟩

/-- Settles O2: the encoder packs the fields that the row's used bits keep. -/
theorem encodeOfDecodeKeepsExactlyTheUsedBits : Obligations.EncodeOfDecodeKeepsExactlyTheUsedBits := by
  unfold Obligations.EncodeOfDecodeKeepsExactlyTheUsedBits
  intro cmd i h
  obtain ⟨hrsv, hsel⟩ := selects_of_decode h
  exact encode_of_selects hrsv hsel

/-! ### Words that a step does not tell apart -/

/-- A step looks at a command word only through the decoder. -/
theorem Machine.step_congr_decode {c c' : Cmd} (h : decode c = decode c') (s : Machine.State) (buf : Memory)
    (rest : List Input) :
    Machine.step { s with inputs := .request ⟨c, buf⟩ :: rest } =
      Machine.step { s with inputs := .request ⟨c', buf⟩ :: rest } := by
  have hperform : ∀ t, Machine.perform c t = Machine.perform c' t := fun t => by rw [Machine.perform, h]; rfl
  simp only [Machine.step, Request.wf, hperform]
  rfl

/-- Every row uses all of `OP` and `RSV`, and a row of an encode uses `PNV`. -/
theorem row_uses_selectors : ∀ row ∈ opTable,
    opField row.used = BitVec.allOnes 8 ∧ rsvField row.used = BitVec.allOnes 2 ∧ row.used &&& row.mask = row.mask ∧
      (opField row.pattern = 0x07#8 → pnvField row.used = true) ∧ opField row.mask = BitVec.allOnes 8 := by
  decide

/-- Words of a row that agree on its used bits have the same used bits, less `PN` where it is omitted. -/
theorem usedBits_congr {c c' : Cmd} {row : OpRow} (hmem : row ∈ opTable) (hrow : c &&& row.mask = row.pattern)
    (h : c &&& row.used = c' &&& row.used) : usedBits c row = usedBits c' row := by
  obtain ⟨husedOp, husedRsv, -, husedPnv, hmaskOp⟩ := row_uses_selectors row hmem
  obtain ⟨hop, -⟩ := op_rsv_eq_of_and_eq h husedOp husedRsv
  have hpattern : opField c = opField row.pattern := by
    rw [← hrow, opField_and, hmaskOp, BitVec.and_allOnes]
  by_cases henc : opField c = 0x07#8
  · have hpnv := congrArg pnvField h
    rw [pnvField_and, pnvField_and, husedPnv (hpattern ▸ henc), Bool.and_true, Bool.and_true] at hpnv
    rw [usedBits, usedBits, hop, hpnv, h]
  · rw [usedBits_of_ne henc, usedBits_of_ne (hop ▸ henc), h]

/-- The operation is the same too, because the encoder writes only used bits and the decoder reads them back. -/
theorem decode_eq_of_used_eq {c c' : Cmd} {row : OpRow} (hmem : row ∈ opTable) (hrow : c &&& row.mask = row.pattern)
    (h : c &&& row.used = c' &&& row.used) : decode c = decode c' := by
  obtain ⟨-, -, hmask, -⟩ := row_uses_selectors row hmem
  have hrow' : c' &&& row.mask = row.pattern := by
    rw [← hrow, ← hmask, ← BitVec.and_assoc, ← BitVec.and_assoc, h]
  have hencode : ∀ {w : Cmd}, w &&& row.mask = row.pattern → ∃ i, decode w = .ok i ∧ encode i = usedBits w row := by
    intro w hw
    obtain ⟨i, hi, hmn⟩ := (row_matches_iff hmem).mp hw
    obtain ⟨hrsv, hsel⟩ := selects_of_decode hi
    obtain ⟨row', hmem', hmn', henc⟩ := encode_of_selects hrsv hsel
    exact ⟨i, hi, row_eq_of_mnemonic_eq row' hmem' row hmem (hmn'.trans hmn) ▸ henc⟩
  obtain ⟨i, hi, henc⟩ := hencode hrow
  obtain ⟨i', hi', henc'⟩ := hencode hrow'
  have hsame : encode i = encode i' := by rw [henc, henc', usedBits_congr hmem hrow h]
  rw [hi, hi', ← decode_encode i, ← decode_encode i', hsame]

/-- With `PNV = 0` the upper half of the word is not read. -/
theorem decode_eq_of_low_half_eq {c c' : Cmd} (hpnv : pnvField c = false)
    (h : c.extractLsb' 0 32 = c'.extractLsb' 0 32) : decode c = decode c' := by
  have hfield : ∀ lo n, lo + n ≤ 32 → c.extractLsb' lo n = c'.extractLsb' lo n := fun lo n hle => by
    rw [← BitVec.extractLsb'_extractLsb'_of_le hle, h, BitVec.extractLsb'_extractLsb'_of_le hle]
  have hbit : ∀ j < 32, c.getLsbD j = c'.getLsbD j := fun j hj =>
    getLsbD_eq_of_extractLsb'_eq h (Nat.zero_le j) (by omega)
  have hpn : pnOperand c = pnOperand c' := by
    have hpnv' : pnvField c' = false := (hbit 9 (by decide)).symm.trans hpnv
    rw [pnOperand, pnOperand, hpnv, hpnv']
    rfl
  have hop : opField c = opField c' := hfield 0 8 (by decide)
  have hrsv : rsvField c = rsvField c' := hfield 14 2 (by decide)
  have ha : aField c = aField c' := hfield 16 8 (by decide)
  have hb : bField c = bField c' := hfield 24 8 (by decide)
  have hsec : secField c = secField c' := hbit 8 (by decide)
  have hval : valField c = valField c' := hbit 10 (by decide)
  have hhdp : hdpField c = hdpField c' := hbit 11 (by decide)
  have hwfa : wfaField c = wfaField c' := hbit 12 (by decide)
  have hros : rosField c = rosField c' := hbit 13 (by decide)
  simp only [decode, hop, hrsv, ha, hb, hsec, hval, hhdp, hwfa, hros, hpn]

end Sys2Proof
end

section
/-! What a step does not read (`30_encoding.md` R81), and the words of the text forms (R85). -/

namespace Sys2Proof.Machine

open Sys2Proof.Spec

/-- The operations 1 to 4 take nothing from the buffer or the counter. -/
theorem exists_bufferless_of_op_le {c : Cmd} (hrsv : rsvField c = 0#2) (hmin : 1 ≤ (opField c).toNat)
    (hmax : (opField c).toNat ≤ 4) :
    ∃ i, decode c = .ok i ∧ omitsNumber i = false ∧ ∀ n n' buf buf', resultOf i n buf = resultOf i n' buf' := by
  obtain ⟨i, hi⟩ := decode_ok_iff_legal.mpr ⟨hrsv, hmin, hmax.trans (by decide)⟩
  refine ⟨i, hi, ?_⟩
  obtain ⟨-, hsel⟩ := selects_of_decode hi
  cases hsel with
  | setbit | getbit | infoenc | infodec => exact ⟨rfl, fun _ _ _ _ => rfl⟩
  | cksum hop | crc32 hop | encS hop | encP hop | decS hop | decP hop =>
    rw [hop] at hmax
    exact absurd hmax (by decide)

/-- Settles O6: unused fields do not reach the decoder's result, and the buffer does not reach the result of the operations
1 to 4. -/
theorem unusedFieldsAreIgnored : Obligations.UnusedFieldsAreIgnored := by
  unfold Obligations.UnusedFieldsAreIgnored
  refine ⟨?fields, ?packetNumber, ?buffer⟩
  case fields => exact fun row hmem c c' hrow h => step_congr_decode (decode_eq_of_used_eq hmem hrow h)
  case packetNumber => exact fun c c' hpnv _ h => step_congr_decode (decode_eq_of_low_half_eq hpnv h)
  case buffer =>
    intro c s buf buf' rest hrsv hmin hmax hwf hwf'
    obtain ⟨i, hi, homits, hresult⟩ := exists_bufferless_of_op_le hrsv hmin hmax
    obtain ⟨resp, hresp⟩ := finish_resultOf i s.seq buf
    have hstep : ∀ b, Memory.wf b = true → step { s with inputs := .request ⟨c, b⟩ :: rest } =
        .next { s with ibuf := b, inputs := rest, rsp := some resp } := by
      intro b hb
      rw [step_of_request_of_decode (r := ⟨c, b⟩) rfl hb hi, exec_eq_finish,
        count_of_not_draws (draws_of_not_omitsNumber homits _), hresult _ s.seq _ buf, hresp]
      rfl
    exact ⟨_, _, hstep buf hwf, hstep buf' hwf', rfl, rfl⟩

end Sys2Proof.Machine

namespace Sys2Proof

open Sys2Proof.Spec

/-! ### Text forms -/

theorem decode_word (f : TextForm) : decode f.word = .ok f.instr := by
  cases f with
  | encP hdp wfa ros info dev pn =>
    have h := Selects.encP (cmd := (TextForm.encP hdp wfa ros info dev pn).word) (opField_packCmd ..)
      (secField_packCmd ..)
    rw [TextForm.word, hdpField_packCmd, wfaField_packCmd, rosField_packCmd, aField_packCmd, pnOperand_packCmd] at h
    exact decode_of_selects (rsvField_packCmd ..) h
  | _ => exact decode_encode _

theorem usedBits_and_not_used (c : Cmd) (row : OpRow) : usedBits c row &&& ~~~row.used = 0#64 := by
  have hnone : row.used &&& ~~~row.used = 0#64 := BitVec.and_not_self _
  have hused : c &&& row.used &&& ~~~row.used = 0#64 := by rw [BitVec.and_assoc, hnone, BitVec.and_zero]
  unfold usedBits
  split
  case isTrue =>
    have hcomm : c &&& row.used &&& 0x00000000FFFFFFFF#64 &&& ~~~row.used =
        c &&& row.used &&& ~~~row.used &&& 0x00000000FFFFFFFF#64 := by ac_rfl
    rw [hcomm, hused, BitVec.zero_and]
  case isFalse => exact hused

/-- An encoded word has no bit outside the bound bits of its row. -/
theorem encode_and_not_bound (i : Instr) :
    ∃ row ∈ opTable, row.mnemonic = i.mnemonic ∧ encode i &&& ~~~boundBits row = 0#64 := by
  obtain ⟨row, hmem, hmn, h⟩ := encode_of_selects (rsvField_encode i) (selects_encode i)
  have hused : encode i &&& ~~~row.used = 0#64 := by
    rw [h]
    exact usedBits_and_not_used _ row
  refine ⟨row, hmem, hmn, ?_⟩
  unfold boundBits
  split
  case isTrue => rw [BitVec.not_or, ← BitVec.and_assoc, hused, BitVec.zero_and]
  case isFalse => exact hused

/-- In the word of `ENC.P` only `VAL` is not bound, and it is 0. -/
theorem encP_word_and_not_bound (hdp wfa ros : Bool) (info dev : Byte) (pn : Option Word) :
    (TextForm.encP hdp wfa ros info dev pn).word &&& ~~~boundBits opTable[7] = 0#64 := by
  have hval : (TextForm.encP hdp wfa ros info dev pn).word.getLsbD 10 = false := valField_packCmd ..
  have hunbound : ~~~boundBits opTable[7] = BitVec.twoPow 64 10 := by decide
  rw [hunbound, BitVec.and_twoPow, hval]
  rfl

theorem word_and_not_bound (f : TextForm) :
    ∃ row ∈ opTable, row.mnemonic = f.instr.mnemonic ∧ f.word &&& ~~~boundBits row = 0#64 := by
  cases f with
  | encP hdp wfa ros info dev pn =>
    exact ⟨opTable[7], by decide, rfl, encP_word_and_not_bound hdp wfa ros info dev pn⟩
  | _ => exact encode_and_not_bound _

/-- Settles O59: the text form's word is its operation's word, and for `ENC.P` the one with `dev` in `B`, which decodes to
the same operation. -/
theorem textFormsSelectTheirOperations : Obligations.TextFormsSelectTheirOperations := by
  unfold Obligations.TextFormsSelectTheirOperations
  refine ⟨fun f => ⟨decode_word f, word_and_not_bound f⟩, ?bound, ?device, fun _ _ _ _ _ _ => ⟨rfl, rfl, rfl, rfl⟩⟩
  case bound =>
    intro hdp wfa ros info dev pn
    exact ⟨bField_packCmd .., pnField_packCmd .., pnField_packCmd ..⟩
  case device =>
    intro hdp wfa ros info dev dev' pn s bytes rest
    have hsame := (decode_word (.encP hdp wfa ros info dev pn)).trans (decode_word (.encP hdp wfa ros info dev' pn)).symm
    exact Machine.step_congr_decode hsame s bytes rest

end Sys2Proof
end
